-- ==== Sys2Proof/Word.lean ====
section
/-! DEFINITION. Word.lean: the bit-vector types of the block (00_scope.md rules R6 and R8). -/

namespace Sys2Proof

/-- One byte of a buffer (rule R8). -/
abbrev Byte := BitVec 8

/-- One register of the window, and a command word (rules R6 and R80). -/
abbrev Word := BitVec 32

/-- A 64-bit quantity, held in two registers `X_HI`:`X_LO` (rule R6). -/
abbrev DWord := BitVec 64

end Sys2Proof
end

