-- ==== Sys2Proof/Syntax.lean ====
section
/-! DEFINITION. Syntax.lean: the ten commands of spec/opcode_table.json (30_encoding.md rule R82). -/

namespace Sys2Proof

/-- The commands of the block. No command has an operand field: every operand comes from a register
(30_encoding.md rule R81). -/
inductive Instr where
  /-- NOP, 40_command.md rule R106. -/
  | nop
  /-- MFENC: the moving factor as eight big-endian bytes, 41_truncate.md rule R120. -/
  | mfenc
  /-- HMAC: the digest of MSG from the engine, 41_truncate.md rule R122. -/
  | hmac
  /-- TRUNC: truncation, reduction, check digit, text, 41_truncate.md rule R129. -/
  | trunc
  /-- LUHN: the check digit alone, 41_truncate.md rule R140. -/
  | luhn
  /-- HOTP: the counter-based generator, 42_moving_factor.md rule R160. -/
  | hotp
  /-- TSTEP: the time-step derivation, 42_moving_factor.md rule R170. -/
  | tstep
  /-- HEXENC: the moving factor as hexadecimal text, 42_moving_factor.md rule R175. -/
  | hexenc
  /-- HEXDEC: hexadecimal text to the moving factor, 42_moving_factor.md rule R176. -/
  | hexdec
  /-- TOTP: the time-based generator, 42_moving_factor.md rule R180. -/
  | totp
  deriving DecidableEq, Repr

end Sys2Proof
end

