-- ==== Sys2Proof/Machine/Port.lean ====
section
/-! DEFINITION. Port.lean: the host port and the moves of the agents around the block, as data.
The register window is 10_state.md rule R21, the accesses are 20_memory.md rules R63 and R64, the
agents are 00_scope.md rule R4, the host program notation is 30_encoding.md rules R85 and R86. -/

namespace Sys2Proof

/-- The registers of the window (10_state.md rule R21). A buffer's word carries its index. -/
inductive Reg where
  | id
  | version
  | ctrl
  | status
  | cmd
  | errinfo
  | cfg
  | toff
  | period
  | hexlen
  | timeLo
  | timeHi
  | ctrLo
  | ctrHi
  | lnumLo
  | lnumHi
  | msg (j : Fin 2)
  | otpLo
  | otpHi
  | truncv
  | offused
  | lres
  | codelen
  | hex (j : Fin 4)
  | code (j : Fin 8)
  | digest (j : Fin 16)
  deriving DecidableEq, Repr

/-- The width of a bus access in bits. The data bus has 32 (00_scope.md rule R5). -/
inductive Width where
  | w8
  | w16
  | w32
  deriving DecidableEq, Repr

/-- One host access, at a byte offset in the window (20_memory.md rules R60, R63 and R64). -/
inductive Access where
  /-- A read. -/
  | read (w : Width) (off : BitVec 8)
  /-- A write of `data`. -/
  | write (w : Width) (off : BitVec 8) (data : Word)
  deriving DecidableEq, Repr

/-- One move of an agent (00_scope.md rule R4). The moves still to come stand in `State.schedule`
(log entry 1). -/
inductive Event where
  /-- The host performs an access (20_memory.md rule R68). -/
  | host (a : Access)
  /-- The sequencer takes its step, if it has one (40_command.md rule R101). -/
  | sequencer
  /-- The engine's answer to the outstanding request arrives (41_truncate.md rule R121). -/
  | engine
  /-- An answer to an aborted request arrives (41_truncate.md rule R121, 70_reset_and_hazards.md rule R241). -/
  | lateAnswer
  /-- Whichever of sequencer and engine can move does (40_command.md rule R102). -/
  | agent
  /-- The host's `WAIT`: read STATUS until BUSY = 0 (30_encoding.md rule R86). -/
  | wait
  /-- The reset input is asserted (70_reset_and_hazards.md rule R240). -/
  | assertReset
  /-- The reset input is released (70_reset_and_hazards.md rule R240). -/
  | releaseReset
  deriving DecidableEq, Repr

/-- The 64-bit registers a host program can write with `WR64` (30_encoding.md rule R86). -/
inductive Pair where
  | time
  | ctr
  | lnum
  | otp
  deriving DecidableEq, Repr

/-- The byte buffers (20_memory.md rule R62). -/
inductive Buf where
  | msg
  | hex
  | code
  | digest
  deriving DecidableEq, Repr

/-- How many words a buffer has (10_state.md rule R21). -/
def Buf.words : Buf → Nat
  | .msg => 2
  | .hex => 4
  | .code => 8
  | .digest => 16

/-- A line of a host program (30_encoding.md rules R85 and R86). -/
inductive HostLine where
  /-- `WR <REG>, <imm32>`. -/
  | wr (r : Reg) (v : Word)
  /-- `RD <REG>`. -/
  | rd (r : Reg)
  /-- `CMD <mnemonic>`. -/
  | cmd (i : Instr)
  /-- `WR64 <X>, <imm64>`. -/
  | wr64 (x : Pair) (v : DWord)
  /-- `WRBUF <BUF>, <bytes>`. -/
  | wrbuf (b : Buf) (bytes : List Byte)
  /-- `WAIT`. -/
  | wait
  deriving DecidableEq, Repr

end Sys2Proof
end

