-- ==== Sys2Proof/WellFormed.lean ====
section
/-! DEFINITION. WellFormed.lean: which terms the encoding and the host program notation admit
(30_encoding.md rules R80 to R86; of `WRBUF` the model's choice, log entry 21). -/

namespace Sys2Proof

/-- A command is well formed whatever it is: it has no field that could be out of range (rule R81). -/
def Instr.wellFormed : Instr → Bool
  | .nop => true
  | .mfenc => true
  | .hmac => true
  | .trunc => true
  | .luhn => true
  | .hotp => true
  | .tstep => true
  | .hexenc => true
  | .hexdec => true
  | .totp => true

/-- A word in the one command format: RSVD (bits 31:8) is 0 (rule R80). -/
def reservedBitsClear (w : Word) : Bool := w.extractLsb' 8 24 == 0#24

/-- A word whose OP (bits 7:0) names a command (rule R82). -/
def opcodeDefined (w : Word) : Bool := (w.extractLsb' 0 8).toNat ≤ 9

/-- Which lines of a host program are well formed: every line but a `WRBUF` whose byte count is not a
multiple of 4 or is above the buffer's size. Rule R86 does not speak of these; that they are ill formed is
the model's choice (DESIGN CHOICE, log entry 21). -/
def HostLine.wellFormed : HostLine → Bool
  | .wr _ _ => true
  | .rd _ => true
  | .cmd _ => true
  | .wr64 _ _ => true
  | .wrbuf b bytes => bytes.length % 4 == 0 && decide (bytes.length ≤ 4 * b.words)
  | .wait => true

end Sys2Proof
end

