-- ==== Sys2Proof/Decode.lean ====
section
/-! DEFINITION. Decode.lean: command words to commands and back (30_encoding.md rules R80 to R84). -/

namespace Sys2Proof

/-- Why a word is no command (30_encoding.md rule R83). -/
inductive IllegalCommand where
  /-- RSVD ≠ 0: sub-cause 0x08. -/
  | reservedBits
  /-- RSVD = 0 and OP in 0x0A..0xFF: sub-cause 0x09. -/
  | opcodeReserved
  deriving DecidableEq, Repr

/-- The command an opcode selects (rule R82). -/
def opcodeCommand : Nat → Option Instr
  | 0x00 => some .nop
  | 0x01 => some .mfenc
  | 0x02 => some .hmac
  | 0x03 => some .trunc
  | 0x04 => some .luhn
  | 0x05 => some .hotp
  | 0x06 => some .tstep
  | 0x07 => some .hexenc
  | 0x08 => some .hexdec
  | 0x09 => some .totp
  | _ => none

/-- `decode` of rule R84, total on all words: RSVD is checked first, then OP selects. -/
def decode (w : Word) : Except IllegalCommand Instr :=
  if w.extractLsb' 8 24 = 0#24 then
    match opcodeCommand (w.extractLsb' 0 8).toNat with
    | some i => .ok i
    | none => .error .opcodeReserved
  else .error .reservedBits

/-- The OP field of a command (rule R82). -/
def opcode : Instr → BitVec 8
  | .nop => 0x00#8
  | .mfenc => 0x01#8
  | .hmac => 0x02#8
  | .trunc => 0x03#8
  | .luhn => 0x04#8
  | .hotp => 0x05#8
  | .tstep => 0x06#8
  | .hexenc => 0x07#8
  | .hexdec => 0x08#8
  | .totp => 0x09#8

/-- The word of a command: RSVD zero above OP (rule R80). -/
def encode (i : Instr) : Word := 0#24 ++ opcode i

/-- The word the table's numbering gives: a command is one 32-bit word, carried whole by the bus
(20_memory.md rule R71); bits above `nbits` are 0. -/
def tableWord (nbits w : Nat) : Word := BitVec.ofNat 32 (w % 2 ^ nbits)

/-- The command the decoder reads from a table word. -/
def decodeTableWord (nbits w : Nat) : Option Instr :=
  match decode (tableWord nbits w) with
  | .ok i => some i
  | .error _ => none

end Sys2Proof
end

