-- ==== Sys2Proof/Config.lean ====
section
/-! DEFINITION. Config.lean: the OPEN parameters of 00_scope.md rule R5 that a rule reads. Each is a
constant with no body, so no proof can lean on a value of it.
`CMD_LATENCY`, `CLOCK` and `RESET_TIMING` are timing: no rule depends on them (rules R102 and R248,
92_eei_decisions.md D35 and D36; log entry 8). -/

namespace Sys2Proof

/-- The HMAC algorithms `CFG.ALG` can select (10_state.md rule R29). -/
inductive Alg where
  /-- ALG = 0, HMAC-SHA1. -/
  | sha1
  /-- ALG = 1, HMAC-SHA256. -/
  | sha256
  /-- ALG = 2, HMAC-SHA512. -/
  | sha512
  deriving DecidableEq, Repr

/-- An answer on the engine's response channel (41_truncate.md rule R121). A digest of `L` bytes is the
first `L` of the 64 bytes here; the block reads no other (log entry 7). -/
inductive EngineAnswer where
  /-- The requested HMAC variant is not available. -/
  | cryptoUnavailable
  /-- The engine rejects the key it holds. -/
  | invalidKey
  /-- The digest, byte 0 first. -/
  | digest (bytes : Vector Byte 64)
  deriving DecidableEq, Repr, Inhabited

/-- A request on the engine's request channel: the algorithm and the eight message bytes (rule R121). -/
structure EngineRequest where
  alg : Alg
  msg : Vector Byte 8
  deriving DecidableEq, Repr

/-- `Engine`: what the engine, with the key it holds, makes of an algorithm it supports and a message. -/
opaque Config.engineOracle : Alg → Vector Byte 8 → EngineAnswer

/-- `ENGINE_ALGS`: the algorithms for which the engine can return a digest. -/
opaque Config.engineAlgs : Alg → Bool

/-- `BASE` divided by 256: the window is 256-byte aligned (20_memory.md rule R60). -/
opaque Config.basePage : Nat

end Sys2Proof
end

