-- ==== Sys2Proof/Machine/State.lean ====
section
/-! DEFINITION. State.lean: everything the spec gives the block (10_state.md), the reset input
(70_reset_and_hazards.md rule R240), and the model's own record of the moves to come. -/

namespace Sys2Proof.Machine

/-- Why the machine stops: never. The block has no trap mechanism and every access and command
completes (60_exceptions.md rule R204), so no reason exists. Safe: nobody raises one (log entry 9). -/
inductive Fault where
  deriving DecidableEq, Repr

/-- Why a command has no meaning. -/
inductive Refusal where
  /-- Raised by an arm of `exec` whose command has no meaning yet; no arm does. Safe. -/
  | notModelled (mnemonic : String)
  deriving DecidableEq, Repr

/-- STATUS (10_state.md rule R24). Reserved bits have no storage: they read 0. -/
structure Status where
  busy : Bool
  done : Bool
  err : Bool
  errCode : BitVec 4
  accErr : Bool
  busyErr : Bool
  deriving DecidableEq, Repr

/-- ERRINFO (10_state.md rule R26). -/
structure ErrInfo where
  sub : Byte
  idx : Byte
  deriving DecidableEq, Repr

/-- CFG (10_state.md rules R27 to R29). -/
structure Cfg where
  digits : BitVec 6
  chk : Bool
  alg : BitVec 2
  deriving DecidableEq, Repr

/-- The configuration, operand, data and result registers: what commands read and write
(10_state.md rules R27 to R44, 30_encoding.md rule R81). -/
structure Regs where
  cfg : Cfg
  /-- TOFF, rule R30. -/
  toff : Word
  /-- PERIOD, rule R33. -/
  period : Word
  /-- HEXLEN.LEN, rule R35. -/
  hexLen : BitVec 5
  /-- TIME, rule R32. -/
  time : DWord
  /-- CTR, rule R31. -/
  ctr : DWord
  /-- LNUM, rule R34. -/
  lnum : DWord
  /-- MSG[0..7], rule R36. -/
  msg : Vector Byte 8
  /-- OTP, rule R37. -/
  otp : DWord
  /-- TRUNCV[30:0], rule R38. -/
  truncv : BitVec 31
  /-- OFFUSED.OFF, rule R39. -/
  off : BitVec 6
  /-- OFFUSED.DYN, rule R39. -/
  dyn : Bool
  /-- LRES[3:0], rule R40. -/
  lres : BitVec 4
  /-- CODELEN[5:0], rule R41. -/
  codeLen : BitVec 6
  /-- HEX[0..15], rule R42. -/
  hex : Vector Byte 16
  /-- CODE[0..31], rule R43. -/
  code : Vector Byte 32
  /-- DIGEST[0..63], rule R44. -/
  digest : Vector Byte 64
  deriving DecidableEq, Repr

/-- `seq` of the hidden state (10_state.md rule R45). -/
inductive Seq where
  /-- IDLE. -/
  | idle
  /-- RUNNING(w), where w is the accepted command word. -/
  | running (w : Word)
  deriving DecidableEq, Repr

/-- The block, its reset input, and the model's own two fields.
ID and VERSION are hard-wired and CTRL.SRST reads 0, so they have no field (rules R22 and R23). -/
structure State where
  /-- CTRL.IE, rule R23. -/
  ie : Bool
  status : Status
  /-- CMD, rule R25. -/
  cmd : Word
  errInfo : ErrInfo
  regs : Regs
  seq : Seq
  /-- `eng_req` of rule R45. -/
  engReq : Bool
  /-- `eng_resp` of rule R45. -/
  engResp : Option EngineAnswer
  /-- The reset input is asserted (70_reset_and_hazards.md rule R240). -/
  resetIn : Bool
  /-- The model's own: the agents' moves still to come, in order (log entry 1). -/
  schedule : List Event
  /-- The model's own: the data the latest host read returned (log entry 4). -/
  readData : Word
  deriving DecidableEq, Repr

/-- STATUS after reset (10_state.md rule R47). -/
def Status.reset : Status :=
  { busy := false, done := false, err := false, errCode := 0#4, accErr := false, busyErr := false }

/-- ERRINFO after reset, and after an acceptance (rules R47 and R100). -/
def ErrInfo.none : ErrInfo := { sub := 0x00#8, idx := 0x00#8 }

/-- The registers after reset (10_state.md rule R47). -/
def Regs.reset : Regs where
  cfg := { digits := 6#6, chk := false, alg := 0#2 }
  toff := 0xFFFFFFFF#32
  period := 0x0000001E#32
  hexLen := 0#5
  time := 0#64
  ctr := 0#64
  lnum := 0#64
  msg := Vector.replicate 8 0x00#8
  otp := 0#64
  truncv := 0#31
  off := 0#6
  dyn := false
  lres := 0#4
  codeLen := 0#6
  hex := Vector.replicate 16 0x00#8
  code := Vector.replicate 32 0x00#8
  digest := Vector.replicate 64 0x00#8

/-- The block right after reset (10_state.md rule R47, 70_reset_and_hazards.md rule R240), with no move
to come and no read made: the values of `schedule` and `readData` are DESIGN CHOICE (log entries 3
and 4). -/
def State.reset : State where
  ie := false
  status := Status.reset
  cmd := 0x00000000#32
  errInfo := ErrInfo.none
  regs := Regs.reset
  seq := .idle
  engReq := false
  engResp := none
  resetIn := false
  schedule := []
  readData := 0x00000000#32

end Sys2Proof.Machine
end

