-- ==== Sys2Proof/Machine/Flags.lean ====
section
/-! DEFINITION. Flags.lean: the error kinds and causes, and what each event does to STATUS, ERRINFO and
the interrupt line (10_state.md rule R24, 60_exceptions.md rules R200 to R206). There are no condition
codes. -/

namespace Sys2Proof.Machine

/-- The causes of a command error, the rows of the table of 60_exceptions.md rule R201. -/
inductive CmdError where
  /-- 0x01 DIGITS_ZERO. -/
  | digitsZero
  /-- 0x02 DIGITS_RANGE. -/
  | digitsRange
  /-- 0x03 ALG_RESERVED. -/
  | algReserved
  /-- 0x04 TIME_NEGATIVE. -/
  | timeNegative
  /-- 0x05 HEXLEN_ZERO. -/
  | hexLenZero
  /-- 0x06 HEXLEN_RANGE. -/
  | hexLenRange
  /-- 0x07 HEX_CHAR, with the lowest offending index. -/
  | hexChar (k : Fin 16)
  /-- 0x08 RESERVED_BITS or 0x09 OPCODE_RESERVED. -/
  | illegal (why : IllegalCommand)
  /-- 0x0A ENGINE_UNAVAILABLE. -/
  | engineUnavailable
  /-- 0x0B ENGINE_KEY. -/
  | engineKey
  deriving DecidableEq, Repr

/-- STATUS.ERRCODE of a cause (60_exceptions.md rules R200 and R201). -/
def errCodeOf : CmdError → BitVec 4
  | .digitsZero => 1#4
  | .digitsRange => 1#4
  | .algReserved => 1#4
  | .timeNegative => 1#4
  | .hexLenZero => 1#4
  | .hexLenRange => 1#4
  | .hexChar _ => 1#4
  | .illegal _ => 4#4
  | .engineUnavailable => 2#4
  | .engineKey => 3#4

/-- ERRINFO.SUB of a cause (60_exceptions.md rule R201). -/
def subCauseOf : CmdError → Byte
  | .digitsZero => 0x01#8
  | .digitsRange => 0x02#8
  | .algReserved => 0x03#8
  | .timeNegative => 0x04#8
  | .hexLenZero => 0x05#8
  | .hexLenRange => 0x06#8
  | .hexChar _ => 0x07#8
  | .illegal .reservedBits => 0x08#8
  | .illegal .opcodeReserved => 0x09#8
  | .engineUnavailable => 0x0A#8
  | .engineKey => 0x0B#8

/-- ERRINFO.IDX of a cause: the index of the offending HEX character, otherwise 0 (10_state.md rule R26). -/
def errIndexOf : CmdError → Byte
  | .digitsZero => 0x00#8
  | .digitsRange => 0x00#8
  | .algReserved => 0x00#8
  | .timeNegative => 0x00#8
  | .hexLenZero => 0x00#8
  | .hexLenRange => 0x00#8
  | .hexChar k => BitVec.ofNat 8 k.val
  | .illegal _ => 0x00#8
  | .engineUnavailable => 0x00#8
  | .engineKey => 0x00#8

/-- ERRINFO after an error completion (40_command.md rule R104). -/
def errInfoOf (e : CmdError) : ErrInfo := { sub := subCauseOf e, idx := errIndexOf e }

/-- STATUS at an acceptance (40_command.md rule R100). -/
def statusAccepted (s : Status) : Status :=
  { s with busy := true, done := false, err := false, errCode := 0#4 }

/-- STATUS at a success completion (40_command.md rules R101 and R105): ERR and ERRCODE stay as the
acceptance left them. -/
def statusOk (s : Status) : Status := { s with busy := false, done := true }

/-- STATUS at an error completion (40_command.md rules R101 and R104). -/
def statusError (e : CmdError) (s : Status) : Status :=
  { s with busy := false, done := true, err := true, errCode := errCodeOf e }

/-- STATUS after a host write: each W1C bit whose written bit is 1 is cleared, nothing else changes
(10_state.md rule R24). -/
def statusCleared (v : Word) (s : Status) : Status :=
  { s with
    done := s.done && !v.getLsbD 1
    accErr := s.accErr && !v.getLsbD 8
    busyErr := s.busyErr && !v.getLsbD 9 }

/-- The interrupt output: CTRL.IE AND STATUS.DONE (60_exceptions.md rule R206). -/
def irq (s : State) : Bool := s.ie && s.status.done

end Sys2Proof.Machine
end

