-- ==== Sys2Proof/Machine/Operands.lean ====
section
/-! DEFINITION. Operands.lean: how the registers lie in the window, how bytes lie in words, and how
one register is read and stored (10_state.md rules R21 to R46, 20_memory.md rules R61 to R65). -/

namespace Sys2Proof.Machine

/-! ### Bytes and halves -/

/-- Byte `i` of a buffer, `BUF[i]` of 00_scope.md rule R8. Every use is in range. -/
def byteAt {n : Nat} (v : Vector Byte n) (i : Nat) : Byte := v[i]?.getD 0x00#8

/-- Byte `b` (0 to 3) of a word: bits [31−8b : 24−8b] (20_memory.md rule R62). -/
def wordByte (w : Word) (b : Nat) : Byte := w.extractLsb' (24 - 8 * b) 8

/-- Word `j` of a buffer, packed big-endian (20_memory.md rule R62). -/
def bufWord {n : Nat} (v : Vector Byte n) (j : Nat) : Word :=
  byteAt v (4 * j) ++ byteAt v (4 * j + 1) ++ byteAt v (4 * j + 2) ++ byteAt v (4 * j + 3)

/-- A buffer with its word `j` replaced (20_memory.md rule R62). -/
def setBufWord {n : Nat} (v : Vector Byte n) (j : Nat) (w : Word) : Vector Byte n :=
  Vector.ofFn fun k => if k.val / 4 = j then wordByte w (k.val % 4) else v[k]

/-- `X_LO` = X[31:0] (00_scope.md rule R6). -/
def loHalf (x : DWord) : Word := x.extractLsb' 0 32

/-- `X_HI` = X[63:32] (00_scope.md rule R6). -/
def hiHalf (x : DWord) : Word := x.extractLsb' 32 32

/-- A 64-bit register with its low half written and the other half unchanged (20_memory.md rule R65). -/
def setLoHalf (x : DWord) (v : Word) : DWord := hiHalf x ++ v

/-- A 64-bit register with its high half written and the other half unchanged (20_memory.md rule R65). -/
def setHiHalf (x : DWord) (v : Word) : DWord := v ++ loHalf x

/-! ### The register map -/

/-- The byte offset of a register (10_state.md rule R21). -/
def regOffset : Reg → Nat
  | .id => 0x00
  | .version => 0x04
  | .ctrl => 0x08
  | .status => 0x0C
  | .cmd => 0x10
  | .errinfo => 0x14
  | .cfg => 0x18
  | .toff => 0x1C
  | .period => 0x20
  | .hexlen => 0x24
  | .timeLo => 0x28
  | .timeHi => 0x2C
  | .ctrLo => 0x30
  | .ctrHi => 0x34
  | .lnumLo => 0x38
  | .lnumHi => 0x3C
  | .msg j => 0x40 + 4 * j.val
  | .otpLo => 0x48
  | .otpHi => 0x4C
  | .truncv => 0x50
  | .offused => 0x54
  | .lres => 0x58
  | .codelen => 0x5C
  | .hex j => 0x60 + 4 * j.val
  | .code j => 0x80 + 4 * j.val
  | .digest j => 0xC0 + 4 * j.val

/-- Every register of the window (10_state.md rule R21). -/
def allRegs : List Reg :=
  [.id, .version, .ctrl, .status, .cmd, .errinfo, .cfg, .toff, .period, .hexlen, .timeLo, .timeHi,
    .ctrLo, .ctrHi, .lnumLo, .lnumHi] ++
  (List.finRange 2).map .msg ++
  [.otpLo, .otpHi, .truncv, .offused, .lres, .codelen] ++
  (List.finRange 4).map .hex ++ (List.finRange 8).map .code ++ (List.finRange 16).map .digest

/-- The register at an offset, if one is defined there (10_state.md rules R21 and R46). -/
def regAt (off : BitVec 8) : Option Reg := allRegs.find? fun r => regOffset r == off.toNat

/-- The register an access of this width and offset addresses: only an aligned 32-bit access to a
defined register addresses one (20_memory.md rules R63 and R64). -/
def addressed (w : Width) (off : BitVec 8) : Option Reg :=
  match w with
  | .w8 => none
  | .w16 => none
  | .w32 => if off.extractLsb' 0 2 = 0#2 then regAt off else none

/-- A host write to the register is an access error (20_memory.md rule R64). STATUS is not among them
(10_state.md rule R24). -/
def readOnly : Reg → Bool
  | .id => true
  | .version => true
  | .ctrl => false
  | .status => false
  | .cmd => false
  | .errinfo => true
  | .cfg => false
  | .toff => false
  | .period => false
  | .hexlen => false
  | .timeLo => false
  | .timeHi => false
  | .ctrLo => false
  | .ctrHi => false
  | .lnumLo => false
  | .lnumHi => false
  | .msg _ => false
  | .otpLo => true
  | .otpHi => true
  | .truncv => true
  | .offused => true
  | .lres => true
  | .codelen => true
  | .hex _ => false
  | .code _ => true
  | .digest _ => false

/-! ### Reading and storing one register -/

/-- CTRL as read: SRST and the reserved bits read 0 (10_state.md rule R23). -/
def ctrlWord (ie : Bool) : Word := 0#31 ++ BitVec.ofBool ie

/-- STATUS as read (10_state.md rule R24). -/
def statusWord (s : Status) : Word :=
  0#22 ++ BitVec.ofBool s.busyErr ++ BitVec.ofBool s.accErr ++ s.errCode ++ 0#1 ++
    BitVec.ofBool s.err ++ BitVec.ofBool s.done ++ BitVec.ofBool s.busy

/-- ERRINFO as read (10_state.md rule R26). -/
def errInfoWord (e : ErrInfo) : Word := 0#16 ++ e.idx ++ e.sub

/-- CFG as read: bits [5:0] DIGITS, [8] CHK, [13:12] ALG, the others 0 (10_state.md rules R27 to R29). -/
def cfgWord (c : Cfg) : Word := 0#18 ++ c.alg ++ 0#3 ++ BitVec.ofBool c.chk ++ 0#2 ++ c.digits

/-- CFG as a written word stores it: the reserved bits are dropped (10_state.md rules R27 to R29). -/
def cfgOfWord (w : Word) : Cfg :=
  { digits := w.extractLsb' 0 6, chk := w.getLsbD 8, alg := w.extractLsb' 12 2 }

/-- The value a legal host read of a register returns (20_memory.md rule R63). -/
def readReg (s : State) : Reg → Word
  | .id => 0x4A4F5450#32
  | .version => 0x00000001#32
  | .ctrl => ctrlWord s.ie
  | .status => statusWord s.status
  | .cmd => s.cmd
  | .errinfo => errInfoWord s.errInfo
  | .cfg => cfgWord s.regs.cfg
  | .toff => s.regs.toff
  | .period => s.regs.period
  | .hexlen => 0#27 ++ s.regs.hexLen
  | .timeLo => loHalf s.regs.time
  | .timeHi => hiHalf s.regs.time
  | .ctrLo => loHalf s.regs.ctr
  | .ctrHi => hiHalf s.regs.ctr
  | .lnumLo => loHalf s.regs.lnum
  | .lnumHi => hiHalf s.regs.lnum
  | .msg j => bufWord s.regs.msg j.val
  | .otpLo => loHalf s.regs.otp
  | .otpHi => hiHalf s.regs.otp
  | .truncv => 0#1 ++ s.regs.truncv
  | .offused => 0#23 ++ BitVec.ofBool s.regs.dyn ++ 0#2 ++ s.regs.off
  | .lres => 0#28 ++ s.regs.lres
  | .codelen => 0#26 ++ s.regs.codeLen
  | .hex j => bufWord s.regs.hex j.val
  | .code j => bufWord s.regs.code j.val
  | .digest j => bufWord s.regs.digest j.val

/-- The registers after a legal host write to a plain RW register stored its defined fields
(20_memory.md rule R63). CTRL, STATUS and CMD have rules of their own, and a read-only register is
never stored to. -/
def storeReg (r : Regs) (reg : Reg) (v : Word) : Regs :=
  match reg with
  | .cfg => { r with cfg := cfgOfWord v }
  | .toff => { r with toff := v }
  | .period => { r with period := v }
  | .hexlen => { r with hexLen := v.extractLsb' 0 5 }
  | .timeLo => { r with time := setLoHalf r.time v }
  | .timeHi => { r with time := setHiHalf r.time v }
  | .ctrLo => { r with ctr := setLoHalf r.ctr v }
  | .ctrHi => { r with ctr := setHiHalf r.ctr v }
  | .lnumLo => { r with lnum := setLoHalf r.lnum v }
  | .lnumHi => { r with lnum := setHiHalf r.lnum v }
  | .msg j => { r with msg := setBufWord r.msg j.val v }
  | .hex j => { r with hex := setBufWord r.hex j.val v }
  | .digest j => { r with digest := setBufWord r.digest j.val v }
  | .id => r
  | .version => r
  | .ctrl => r
  | .status => r
  | .cmd => r
  | .errinfo => r
  | .otpLo => r
  | .otpHi => r
  | .truncv => r
  | .offused => r
  | .lres => r
  | .codelen => r
  | .code _ => r

/-! ### Operands of the commands -/

/-- The algorithm `CFG.ALG` selects; 3 is reserved (10_state.md rule R29). -/
def algOf (a : BitVec 2) : Option Alg :=
  match a.toNat with
  | 0 => some .sha1
  | 1 => some .sha256
  | 2 => some .sha512
  | _ => none

/-- `L(alg)`, the digest length in bytes (00_scope.md rule R5, 10_state.md rule R29). -/
def digestLen : Alg → Nat
  | .sha1 => 20
  | .sha256 => 32
  | .sha512 => 64

/-- `MAX_DIGITS` (00_scope.md rule R5). -/
def maxDigits : Nat := 31

/-- `be64(n)`: eight bytes, the most significant first (00_scope.md rule R10). -/
def be64 (n : Nat) : Vector Byte 8 := Vector.ofFn fun j => BitVec.ofNat 8 (n / 256 ^ (7 - j.val) % 256)

/-- `D[0..L−1] ++ zeros(64−L)` (41_truncate.md rule R122, 42_moving_factor.md rule R160). -/
def zeroFill (len : Nat) (d : Vector Byte 64) : Vector Byte 64 :=
  Vector.ofFn fun i => if i.val < len then d[i] else 0x00#8

end Sys2Proof.Machine
end

