-- ==== Sys2Proof/Machine/Engine.lean ====
section
/-! DEFINITION. Engine.lean: the engine port (41_truncate.md rule R121) and the argument checks that come
before a request (60_exceptions.md rules R202 and R203). -/

namespace Sys2Proof.Machine

/-- `Engine(alg, msg)`: the engine's answer, CryptoUnavailable outside `ENGINE_ALGS` (00_scope.md rule R5,
41_truncate.md rule R121). -/
def engineOf (q : EngineRequest) : EngineAnswer :=
  if Config.engineAlgs q.alg then Config.engineOracle q.alg q.msg else .cryptoUnavailable

/-- The check of CFG.ALG (60_exceptions.md rule R201, cause 0x03). -/
def checkAlg (r : Regs) : Except CmdError Alg :=
  match algOf r.cfg.alg with
  | some a => .ok a
  | none => .error .algReserved

/-- The checks of CFG.DIGITS, in order (60_exceptions.md rule R201, causes 0x01 and 0x02). -/
def checkDigits (r : Regs) : Except CmdError Nat :=
  if r.cfg.digits.toNat = 0 then .error .digitsZero
  else if r.cfg.digits.toNat > maxDigits then .error .digitsRange
  else .ok r.cfg.digits.toNat

/-- The checks of TRUNC, HOTP and TOTP that come first: ALG, then DIGITS (60_exceptions.md rule R202). -/
def checkAlgDigits (r : Regs) : Except CmdError (Alg × Nat) :=
  match checkAlg r with
  | .error e => .error e
  | .ok a =>
    match checkDigits r with
    | .error e => .error e
    | .ok d => .ok (a, d)

/-- The check of TIME, and TIME as the milliseconds it holds (60_exceptions.md rule R201, cause 0x04). -/
def checkTime (r : Regs) : Except CmdError Nat :=
  if r.time.toInt < 0 then .error .timeNegative else .ok r.time.toInt.toNat

/-- What an answer makes of the DIGEST register, or the error it is (41_truncate.md rule R122). -/
def digestOfAnswer (a : Alg) : EngineAnswer → Except CmdError (Vector Byte 64)
  | .cryptoUnavailable => .error .engineUnavailable
  | .invalidKey => .error .engineKey
  | .digest d => .ok (zeroFill (digestLen a) d)

end Sys2Proof.Machine
end

