-- ==== Sys2Proof/Machine/Ops.lean ====
section
/-! DEFINITION. Ops.lean: the shared operations of the block: accepting and completing a command, the
error completion every failing command shares, the two resets, the engine's answer, and host accesses
(40_command.md rules R100 to R105, 20_memory.md rules R63 to R66, 70_reset_and_hazards.md). -/

namespace Sys2Proof.Machine

/-! ### Accept and complete -/

/-- Acceptance of a command word (40_command.md rule R100). -/
def accept (w : Word) (s : State) : State :=
  { s with cmd := w, status := statusAccepted s.status, errInfo := ErrInfo.none, seq := .running w }

/-- What an error does to CODE and CODELEN when the command is one of TRUNC, HOTP, TOTP
(40_command.md rule R104). -/
def clearCode (r : Regs) : Regs := { r with code := Vector.replicate 32 0x00#8, codeLen := 0#6 }

/-- The success completion: the command's writes are committed (40_command.md rules R101 and R105). -/
def completeOk (r : Regs) (s : State) : State :=
  { s with status := statusOk s.status, regs := r, seq := .idle, engReq := false, engResp := none }

/-- The error completion, shared by every failing command: the block's only report of an error
(40_command.md rules R101 and R104, 60_exceptions.md rule R204). `codeProducing` says that the command is
TRUNC, HOTP or TOTP. -/
def completeError (codeProducing : Bool) (e : CmdError) (s : State) : State :=
  { s with
    status := statusError e s.status
    errInfo := errInfoOf e
    regs := if codeProducing then clearCode s.regs else s.regs
    seq := .idle
    engReq := false
    engResp := none }

/-- The completion step for a result of `Exec` (40_command.md rule R101). -/
def complete (codeProducing : Bool) (result : Except CmdError Regs) (s : State) : State :=
  match result with
  | .ok r => completeOk r s
  | .error e => completeError codeProducing e s

/-! ### The engine -/

/-- The step number of a time in milliseconds, half-up to seconds (42_moving_factor.md rules R170 and
R171). It stands here because TOTP's request is made from it. -/
def timeStep (t period : Nat) : Nat :=
  (t / 1000 + if t % 1000 ≥ 500 then 1 else 0) / max period 1

/-- HMAC's request, or the error its checks find first (41_truncate.md rule R122). -/
def hmacRequest (r : Regs) : Except CmdError EngineRequest :=
  match checkAlg r with
  | .error e => .error e
  | .ok a => .ok { alg := a, msg := r.msg }

/-- HOTP's request, or the error its checks find first (42_moving_factor.md rule R160). -/
def hotpRequest (r : Regs) : Except CmdError EngineRequest :=
  match checkAlgDigits r with
  | .error e => .error e
  | .ok (a, _) => .ok { alg := a, msg := be64 r.ctr.toNat }

/-- TOTP's request, or the error its checks find first (42_moving_factor.md rule R180). -/
def totpRequest (r : Regs) : Except CmdError EngineRequest :=
  match checkAlgDigits r with
  | .error e => .error e
  | .ok (a, _) =>
    match checkTime r with
    | .error e => .error e
    | .ok t => .ok { alg := a, msg := be64 (timeStep t r.period.toNat) }

/-- The engine request a command makes, if it makes one (41_truncate.md rule R121, 40_command.md rule
R107: no request when a check fails). -/
def requestOf (i : Instr) (r : Regs) : Option EngineRequest :=
  match i with
  | .nop => none
  | .mfenc => none
  | .hmac => (hmacRequest r).toOption
  | .trunc => none
  | .luhn => none
  | .hotp => (hotpRequest r).toOption
  | .tstep => none
  | .hexenc => none
  | .hexdec => none
  | .totp => (totpRequest r).toOption

/-- The engine request of the running command, if it makes one. -/
def runningRequest (s : State) : Option EngineRequest :=
  match s.seq with
  | .idle => none
  | .running w =>
    match decode w with
    | .ok i => requestOf i s.regs
    | .error _ => none

/-- The sequencer's step for a command of the engine: a failed check completes it at once; with no
answer yet the request is issued, or stays issued; with the answer it completes (40_command.md rules
R101 and R107, 41_truncate.md rule R121). -/
def completeWithEngine (codeProducing : Bool) (request : Except CmdError EngineRequest)
    (result : EngineRequest → EngineAnswer → Except CmdError Regs) (s : State) : State :=
  match request with
  | .error e => completeError codeProducing e s
  | .ok q =>
    match s.engResp with
    | none => { s with engReq := true }
    | some a => complete codeProducing (result q a) s

/-- The engine is asked and has not answered (10_state.md rule R45). -/
def awaitingAnswer (s : State) : Bool :=
  s.engReq && s.engResp.isNone && (runningRequest s).isSome

/-- An answer arrives: it is stored while a request is outstanding and discarded otherwise
(41_truncate.md rule R121); the answer is the oracle's value for the running command's request. -/
def engineAnswers (s : State) : State :=
  if awaitingAnswer s then { s with engResp := (runningRequest s).map engineOf } else s

/-! ### Reset -/

/-- Every piece of the block's state at its reset value (10_state.md rule R47): the hardware reset and
the soft reset alike. The reset input and the model's own fields are not the block's. -/
def resetBlock (s : State) : State :=
  { s with
    ie := false
    status := Status.reset
    cmd := 0x00000000#32
    errInfo := ErrInfo.none
    regs := Regs.reset
    seq := .idle
    engReq := false
    engResp := none }

/-- The reset input is asserted (70_reset_and_hazards.md rule R240). -/
def assertReset (s : State) : State := { resetBlock s with resetIn := true }

/-- The reset input is released (70_reset_and_hazards.md rule R240). -/
def releaseReset (s : State) : State :=
  if s.resetIn then { resetBlock s with resetIn := false } else s

/-! ### Host accesses -/

/-- An access error sets ACCERR and changes nothing else (20_memory.md rule R64). -/
def accessError (s : State) : State := { s with status := { s.status with accErr := true } }

/-- A write dropped while a command runs sets BUSYERR and changes nothing else (40_command.md rule R103). -/
def dropWrite (s : State) : State := { s with status := { s.status with busyErr := true } }

/-- The host's read; a read in error, or under reset, returns 0 (20_memory.md rules R63 to R66,
70_reset_and_hazards.md rule R240). -/
def hostRead (w : Width) (off : BitVec 8) (s : State) : State :=
  if s.resetIn then { s with readData := 0x00000000#32 }
  else
    match addressed w off with
    | none => { accessError s with readData := 0x00000000#32 }
    | some r => { s with readData := readReg s r }

/-- A CTRL write, honoured busy or not: SRST = 1 resets and ignores the written IE
(10_state.md rule R23, 70_reset_and_hazards.md rule R241). -/
def writeCtrl (v : Word) (s : State) : State :=
  if v.getLsbD 1 then resetBlock s else { s with ie := v.getLsbD 0 }

/-- A STATUS write, honoured busy or not (10_state.md rule R24). -/
def writeStatus (v : Word) (s : State) : State := { s with status := statusCleared v s.status }

/-- A write to any other writable register: accepted or stored when idle, dropped while a command runs
(40_command.md rules R100 and R103, 20_memory.md rule R63). -/
def writeWhenIdle (r : Reg) (v : Word) (s : State) : State :=
  match s.seq with
  | .running _ => dropWrite s
  | .idle => if r = .cmd then accept v s else { s with regs := storeReg s.regs r v }

/-- A legal write to a register that is not read-only. -/
def writeReg (r : Reg) (v : Word) (s : State) : State :=
  if r = .ctrl then writeCtrl v s
  else if r = .status then writeStatus v s
  else writeWhenIdle r v s

/-- The host's write (20_memory.md rules R63 and R64, 70_reset_and_hazards.md rule R240). -/
def hostWrite (w : Width) (off : BitVec 8) (v : Word) (s : State) : State :=
  if s.resetIn then s
  else
    match addressed w off with
    | none => accessError s
    | some r => if readOnly r then accessError s else writeReg r v s

/-- One host access (20_memory.md rule R68). -/
def hostAccess (a : Access) (s : State) : State :=
  match a with
  | .read w off => hostRead w off s
  | .write w off v => hostWrite w off v s

end Sys2Proof.Machine
end

