-- ==== Sys2Proof/Machine/Truncate.lean ====
section
/-! DEFINITION. Truncate.lean: MFENC, HMAC, TRUNC and LUHN (41_truncate.md). -/

namespace Sys2Proof.Machine

/-! ### MFENC and HMAC -/

/-- The registers MFENC leaves (41_truncate.md rule R120). -/
def mfencRegs (r : Regs) : Regs := { r with msg := be64 r.ctr.toNat }

/-- MFENC (41_truncate.md rule R120). -/
def execMfenc (s : State) : Host.Outcome State Fault Refusal :=
  .next (complete false (.ok (mfencRegs s.regs)) s)

/-- The registers HMAC leaves for an answer (41_truncate.md rule R122). -/
def hmacResult (r : Regs) (q : EngineRequest) (a : EngineAnswer) : Except CmdError Regs :=
  match digestOfAnswer q.alg a with
  | .error e => .error e
  | .ok h => .ok { r with digest := h }

/-- HMAC (41_truncate.md rule R122). -/
def execHmac (s : State) : Host.Outcome State Fault Refusal :=
  .next (completeWithEngine false (hmacRequest s.regs) (hmacResult s.regs) s)

/-! ### Truncation, reduction, check digit and text -/

/-- `select_offset(t, DIGEST, L)`: the offset and whether it is dynamic (41_truncate.md rule R130). -/
def selectOffset (t : Int) (h : Vector Byte 64) (len : Nat) : Nat × Bool :=
  if 0 ≤ t ∧ t ≤ (len : Int) - 5 then (t.toNat, false)
  else (((byteAt h (len - 1)).extractLsb' 0 4).toNat, true)

/-- `extract31(DIGEST, off)` (41_truncate.md rule R131). -/
def extract31 (h : Vector Byte 64) (off : Nat) : BitVec 31 :=
  (byteAt h off).extractLsb' 0 7 ++ byteAt h (off + 1) ++ byteAt h (off + 2) ++ byteAt h (off + 3)

/-- `T`, the Luhn doubling table (00_scope.md rule R12). -/
def luhnT (d : Nat) : Nat := [0, 2, 4, 6, 8, 1, 3, 5, 7, 9].getD d 0

/-- The total of `luhn`: `d` positions of `n` from the least significant, every second one through `T`,
the first when `dbl` (41_truncate.md rule R135). -/
def luhnTotal : Nat → Nat → Bool → Nat
  | 0, _, _ => 0
  | d + 1, n, dbl => (if dbl then luhnT (n % 10) else n % 10) + luhnTotal d (n / 10) (!dbl)

/-- `luhn(num, d)` (41_truncate.md rule R135). -/
def luhn (num d : Nat) : Nat := (10 - luhnTotal d num true % 10) % 10

/-- `dec(n, len)` in the CODE buffer: `len` characters, leftmost first, then 0x00 (00_scope.md rule R11,
10_state.md rule R43). -/
def decText (n len : Nat) : Vector Byte 32 :=
  Vector.ofFn fun k =>
    if k.val < len then BitVec.ofNat 8 (0x30 + n / 10 ^ (len - 1 - k.val) % 10) else 0x00#8

/-- The result registers of a generated code (41_truncate.md rule R129, 42_moving_factor.md rule R160). -/
def storeCode (r : Regs) (bin : BitVec 31) (off : Nat) (dyn : Bool) (otp len : Nat) : Regs :=
  { r with
    truncv := bin
    off := BitVec.ofNat 6 off
    dyn := dyn
    otp := BitVec.ofNat 64 otp
    code := decText otp len
    codeLen := BitVec.ofNat 6 len }

/-- The registers TRUNC leaves once its checks gave the algorithm and the digit count
(41_truncate.md rules R129 to R134). -/
def truncRegs (r : Regs) (a : Alg) (d : Nat) : Regs :=
  let sel := selectOffset r.toff.toInt r.digest (digestLen a)
  let bin := extract31 r.digest sel.1
  let otp0 := bin.toNat % 10 ^ d
  if r.cfg.chk then
    let c := luhn otp0 d
    { storeCode r bin sel.1 sel.2 (otp0 * 10 + c) (d + 1) with lres := BitVec.ofNat 4 c }
  else storeCode r bin sel.1 sel.2 otp0 d

/-- `Exec(TRUNC)` (41_truncate.md rule R129). -/
def truncResult (r : Regs) : Except CmdError Regs :=
  match checkAlgDigits r with
  | .error e => .error e
  | .ok (a, d) => .ok (truncRegs r a d)

/-- TRUNC (41_truncate.md rule R129). -/
def execTrunc (s : State) : Host.Outcome State Fault Refusal :=
  .next (complete true (truncResult s.regs) s)

/-! ### LUHN -/

/-- `Exec(LUHN)` (41_truncate.md rule R140). -/
def luhnResult (r : Regs) : Except CmdError Regs :=
  match checkDigits r with
  | .error e => .error e
  | .ok d => .ok { r with lres := BitVec.ofNat 4 (luhn r.lnum.toNat d) }

/-- LUHN (41_truncate.md rule R140). -/
def execLuhn (s : State) : Host.Outcome State Fault Refusal :=
  .next (complete false (luhnResult s.regs) s)

end Sys2Proof.Machine
end

