-- ==== Sys2Proof/Machine/MovingFactor.lean ====
section
/-! DEFINITION. MovingFactor.lean: HOTP, TSTEP, HEXENC, HEXDEC and TOTP (42_moving_factor.md). -/

namespace Sys2Proof.Machine

/-! ### HOTP -/

/-- The registers the HOTP pseudocode leaves from `m` on: the digest `h` is truncated dynamically, with
no check digit (42_moving_factor.md rule R160). -/
def generatorRegs (r : Regs) (a : Alg) (d : Nat) (m : Vector Byte 8) (h : Vector Byte 64) : Regs :=
  let sel := selectOffset (-1) h (digestLen a)
  let bin := extract31 h sel.1
  storeCode { r with msg := m, digest := h } bin sel.1 sel.2 (bin.toNat % 10 ^ d) d

/-- `Exec(HOTP)` for an answer of the engine (42_moving_factor.md rule R160). -/
def hotpResult (r : Regs) (q : EngineRequest) (a : EngineAnswer) : Except CmdError Regs :=
  match digestOfAnswer q.alg a with
  | .error e => .error e
  | .ok h => .ok (generatorRegs r q.alg r.cfg.digits.toNat q.msg h)

/-- HOTP (42_moving_factor.md rule R160). -/
def execHotp (s : State) : Host.Outcome State Fault Refusal :=
  .next (completeWithEngine true (hotpRequest s.regs) (hotpResult s.regs) s)

/-! ### TSTEP -/

/-- `Exec(TSTEP)` (42_moving_factor.md rule R170). -/
def tstepResult (r : Regs) : Except CmdError Regs :=
  match checkTime r with
  | .error e => .error e
  | .ok t => .ok { r with ctr := BitVec.ofNat 64 (timeStep t r.period.toNat) }

/-- TSTEP (42_moving_factor.md rule R170). -/
def execTstep (s : State) : Host.Outcome State Fault Refusal :=
  .next (complete false (tstepResult s.regs) s)

/-! ### The hexadecimal time-step text -/

/-- The lower-case character of a nibble (42_moving_factor.md rule R175). -/
def hexChar (v : Nat) : Byte := if v < 10 then BitVec.ofNat 8 (0x30 + v) else BitVec.ofNat 8 (0x61 + (v - 10))

/-- The registers HEXENC leaves (42_moving_factor.md rule R175). -/
def hexencRegs (r : Regs) : Regs :=
  { r with
    hex := Vector.ofFn fun k => hexChar (r.ctr.toNat / 16 ^ (15 - k.val) % 16)
    hexLen := 16#5 }

/-- HEXENC (42_moving_factor.md rule R175). -/
def execHexenc (s : State) : Host.Outcome State Fault Refusal :=
  .next (complete false (.ok (hexencRegs s.regs)) s)

/-- `ishex(c)`: '0'–'9', 'A'–'F', 'a'–'f' (42_moving_factor.md rule R176). -/
def isHex (c : Byte) : Bool :=
  (0x30 ≤ c.toNat && c.toNat ≤ 0x39) || (0x41 ≤ c.toNat && c.toNat ≤ 0x46) ||
    (0x61 ≤ c.toNat && c.toNat ≤ 0x66)

/-- `hexval(c)` of a hexadecimal character (42_moving_factor.md rule R176). -/
def hexVal (c : Byte) : Nat :=
  if c.toNat ≤ 0x39 then c.toNat - 0x30
  else if c.toNat ≤ 0x46 then c.toNat - 0x41 + 10
  else c.toNat - 0x61 + 10

/-- The lowest index below `n` whose character is not hexadecimal (42_moving_factor.md rule R176). -/
def firstNonHex (h : Vector Byte 16) (n : Nat) : Option (Fin 16) :=
  (List.finRange 16).find? fun k => decide (k.val < n) && !isHex h[k]

/-- The value of the first `n` characters, most significant first (42_moving_factor.md rule R176). -/
def hexValue (h : Vector Byte 16) (n : Nat) : Nat :=
  ((List.range n).map fun k => hexVal (byteAt h k) * 16 ^ (n - 1 - k)).sum

/-- `Exec(HEXDEC)` (42_moving_factor.md rule R176). -/
def hexdecResult (r : Regs) : Except CmdError Regs :=
  if r.hexLen.toNat = 0 then .error .hexLenZero
  else if r.hexLen.toNat > 16 then .error .hexLenRange
  else
    match firstNonHex r.hex r.hexLen.toNat with
    | some k => .error (.hexChar k)
    | none => .ok { r with ctr := BitVec.ofNat 64 (hexValue r.hex r.hexLen.toNat) }

/-- HEXDEC (42_moving_factor.md rule R176). -/
def execHexdec (s : State) : Host.Outcome State Fault Refusal :=
  .next (complete false (hexdecResult s.regs) s)

/-! ### TOTP -/

/-- `Exec(TOTP)` for an answer of the engine: HOTP's with the time step for the counter, and CTR
written on success only (42_moving_factor.md rule R180). -/
def totpResult (r : Regs) (q : EngineRequest) (a : EngineAnswer) : Except CmdError Regs :=
  match hotpResult r q a with
  | .error e => .error e
  | .ok r' => .ok { r' with ctr := BitVec.ofNat 64 (timeStep r.time.toInt.toNat r.period.toNat) }

/-- TOTP (42_moving_factor.md rule R180). -/
def execTotp (s : State) : Host.Outcome State Fault Refusal :=
  .next (completeWithEngine true (totpRequest s.regs) (totpResult s.regs) s)

end Sys2Proof.Machine
end

