-- ==== Sys2Proof/Machine/Protocol.lean ====
section
/-! DEFINITION. Protocol.lean: the meaning of NOP (40_command.md rule R106) and of a word that is no
command (30_encoding.md rule R83). -/

namespace Sys2Proof.Machine

/-- NOP: accept and complete, and nothing else (40_command.md rule R106). -/
def execNop (s : State) : Host.Outcome State Fault Refusal :=
  .next (complete false (.ok s.regs) s)

/-- An illegal word completes with IllegalCommand, and is no code-producing command
(30_encoding.md rule R83, 40_command.md rule R104). -/
def execIllegal (why : IllegalCommand) (s : State) : Host.Outcome State Fault Refusal :=
  .next (completeError false (.illegal why) s)

end Sys2Proof.Machine
end

