-- ==== Sys2Proof/Machine/Dispatch.lean ====
section
/-! DEFINITION. Dispatch.lean: the sequencer's step for each command (40_command.md rule R101). -/

namespace Sys2Proof.Machine

def exec (i : Instr) (s : State) : Host.Outcome State Fault Refusal :=
  match i with
  | .nop => Sys2Proof.Machine.execNop s
  | .mfenc => Sys2Proof.Machine.execMfenc s
  | .hmac => Sys2Proof.Machine.execHmac s
  | .trunc => Sys2Proof.Machine.execTrunc s
  | .luhn => Sys2Proof.Machine.execLuhn s
  | .hotp => Sys2Proof.Machine.execHotp s
  | .tstep => Sys2Proof.Machine.execTstep s
  | .hexenc => Sys2Proof.Machine.execHexenc s
  | .hexdec => Sys2Proof.Machine.execHexdec s
  | .totp => Sys2Proof.Machine.execTotp s

end Sys2Proof.Machine
end

