-- ==== Sys2Proof/Machine/Agents.lean ====
section
/-! DEFINITION. Agents.lean: one move of each agent (00_scope.md rule R4), the move that fairness asks for
(40_command.md rule R102), and the window's place on the platform's bus (20_memory.md rule R60). -/

namespace Sys2Proof.Machine

/-- The sequencer's step: while a command runs and reset is not asserted, the decoded command's meaning
(40_command.md rule R101, 30_encoding.md rule R84). Otherwise it has none, and nothing changes
(log entry 10). -/
def sequencerStep (s : State) : Host.Outcome State Fault Refusal :=
  if s.resetIn then .next s
  else
    match s.seq with
    | .idle => .next s
    | .running w =>
      match decode w with
      | .ok i => exec i s
      | .error why => execIllegal why s

/-- An answer arrives at the engine port; under reset it is discarded (41_truncate.md rule R121,
70_reset_and_hazards.md rule R240). -/
def engineStep (s : State) : State := if s.resetIn then s else engineAnswers s

/-- Whichever of engine and sequencer can move does: the engine when it is asked and has not answered,
else the sequencer (40_command.md rule R102, 92_eei_decisions.md D27, log entry 2). -/
def agentStep (s : State) : Host.Outcome State Fault Refusal :=
  if !s.resetIn && awaitingAnswer s then .next (engineAnswers s) else sequencerStep s

/-- The host's `WAIT`: one read of STATUS, and while it shows BUSY = 1 the loop goes on after a move of
the agents (30_encoding.md rule R86, log entry 11). -/
def waitStep (s : State) : State :=
  let s' := hostRead .w32 0x0C#8 s
  if s'.readData.getLsbD 0 then { s' with schedule := .agent :: .wait :: s'.schedule } else s'

/-- One move of an agent. -/
def eventStep (e : Event) (s : State) : Host.Outcome State Fault Refusal :=
  match e with
  | .host a => .next (hostAccess a s)
  | .sequencer => sequencerStep s
  | .engine => .next (engineStep s)
  | .lateAnswer => .next s
  | .agent => agentStep s
  | .wait => .next (waitStep s)
  | .assertReset => .next (assertReset s)
  | .releaseReset => .next (releaseReset s)

/-- A host access and the completion step in one clock cycle act as if the access came first
(60_exceptions.md rule R207). -/
def sameCycle (a : Access) : List Event := [.host a, .sequencer]

/-- `BASE`: 256-byte aligned (20_memory.md rule R60). -/
def base : Nat := 256 * Config.basePage

/-- The offset in the window of an address on the platform's bus, if the window holds it; an access at
any other address does not reach the block (20_memory.md rules R60 and R67, log entry 6). -/
def windowOffset (addr : Nat) : Option (BitVec 8) :=
  if base ≤ addr ∧ addr < base + 256 then some (BitVec.ofNat 8 (addr - base)) else none

/-- The state with a command word accepted and its engine answer, if it asks for one, arrived: all that
the sequencer's next step takes (40_command.md rules R100 and R101, log entry 12). -/
def acceptReady (w : Word) (s : State) : State :=
  let s' := accept w { s with resetIn := false, engReq := false, engResp := none }
  { s' with engReq := (runningRequest s').isSome, engResp := (runningRequest s').map engineOf }

/-- The schedule with the sequencer's move first; an empty one needs none, for the sequencer then moves
by itself. -/
def sequencerFirst : List Event → List Event
  | [] => []
  | e :: es => .sequencer :: e :: es

end Sys2Proof.Machine
end

