-- ==== Sys2Proof/Machine/Step.lean ====
section
/-! DEFINITION. Step.lean: one step of the block and its agents, and how a command comes to be the next
one that runs. -/

namespace Sys2Proof.Machine

/-- The next move of the schedule, or, when none is left, the move fairness asks for
(00_scope.md rule R4, 40_command.md rule R102, log entries 1 and 2). -/
def step (s : State) : Host.Outcome State Fault Refusal :=
  match s.schedule with
  | [] => agentStep s
  | e :: es => eventStep e { s with schedule := es }

/-- The state in which the very next step runs the command of a table word (log entry 12). -/
def State.withFetchWord (s : State) (nbits w : Nat) : State :=
  acceptReady (tableWord nbits w) { s with schedule := sequencerFirst s.schedule }

end Sys2Proof.Machine
end

