-- ==== Sys2Proof/Machine/HostProgram.lean ====
section
/-! DEFINITION. HostProgram.lean: host programs and their expansion into bus accesses (30_encoding.md rules
R85 and R86), and the end of one (40_command.md rule R108). -/

namespace Sys2Proof.Machine

/-- A 32-bit write to a register: `(W, off, data)` (30_encoding.md rule R85). -/
def wrEvent (r : Reg) (v : Word) : Event := .host (.write .w32 (BitVec.ofNat 8 (regOffset r)) v)

/-- A 32-bit read of a register: `(R, off, -)` (30_encoding.md rule R85). -/
def rdEvent (r : Reg) : Event := .host (.read .w32 (BitVec.ofNat 8 (regOffset r)))

/-- `X_LO` of a 64-bit register. -/
def pairLo : Pair → Reg
  | .time => .timeLo
  | .ctr => .ctrLo
  | .lnum => .lnumLo
  | .otp => .otpLo

/-- `X_HI` of a 64-bit register. -/
def pairHi : Pair → Reg
  | .time => .timeHi
  | .ctr => .ctrHi
  | .lnum => .lnumHi
  | .otp => .otpHi

/-- The offset of word 0 of a buffer (10_state.md rule R21). -/
def bufOffset : Buf → Nat
  | .msg => 0x40
  | .hex => 0x60
  | .code => 0x80
  | .digest => 0xC0

/-- One write per four bytes, from the word at offset `off` on, packed big-endian (30_encoding.md rule
R86, 20_memory.md rule R62). Of a byte count that is not a multiple of 4 or is above the buffer's size the
spec says nothing: the last one to three bytes are dropped, and the writes go on at the offsets that follow,
modulo 256 (DESIGN CHOICE, log entry 21; such a line is not `HostLine.wellFormed`). -/
def bufWrites (off : Nat) : List Byte → List Event
  | a :: b :: c :: d :: rest =>
    .host (.write .w32 (BitVec.ofNat 8 off) (a ++ b ++ c ++ d)) :: bufWrites (off + 4) rest
  | _ => []

/-- The accesses of a line (30_encoding.md rules R85 and R86). -/
def expandLine : HostLine → List Event
  | .wr r v => [wrEvent r v]
  | .rd r => [rdEvent r]
  | .cmd i => [wrEvent .cmd (encode i)]
  | .wr64 x v => [wrEvent (pairLo x) (loHalf v), wrEvent (pairHi x) (hiHalf v)]
  | .wrbuf b bytes => bufWrites (bufOffset b) bytes
  | .wait => [.wait]

/-- The accesses of a host program, put after the moves already to come. It expands every line, a well-formed
one or not (log entry 21). -/
def loadProgram (p : List HostLine) (s : State) : State :=
  { s with schedule := s.schedule ++ p.flatMap expandLine }

/-- A host program has ended: its last transaction is performed and the sequencer is idle
(40_command.md rule R108). -/
def programEnded (s : State) : Prop := s.schedule = [] ∧ s.seq = .idle

end Sys2Proof.Machine
end

