-- ==== Sys2Proof/Safety.lean ====
section
/-! DEFINITION. Safety.lean: what holds of the block in every state a run reaches: the consistency of
STATUS, ERRINFO, the hidden state and the code registers. -/

namespace Sys2Proof.Machine

/-- BUSY shows exactly whether a command runs, CMD is the running word, and the report of the previous
command is cleared while it runs (10_state.md rules R24 to R26, 40_command.md rule R100). -/
structure BusyConsistent (s : State) : Prop where
  busy_iff : s.status.busy = true ↔ s.seq ≠ .idle
  cmd_running : ∀ w, s.seq = .running w → s.cmd = w
  busy_clear : s.status.busy = true → s.status.done = false ∧ s.status.err = false

/-- ERR, ERRCODE and ERRINFO report no error, or one cause of the table (10_state.md rules R24 and R26,
60_exceptions.md rules R200 and R201). -/
def ErrorReported (s : State) : Prop :=
  (s.status.err = false ∧ s.status.errCode = 0#4 ∧ s.errInfo = ErrInfo.none) ∨
  ∃ e : CmdError, s.status.err = true ∧ s.status.errCode = errCodeOf e ∧ s.errInfo = errInfoOf e

/-- The engine is asked only for a running command that makes a request, and a stored answer is the
oracle's to that request (10_state.md rule R45, 41_truncate.md rule R121). That eng_req stays true while
an answer is stored is the model's reading (DEDUCED, log entry 13). -/
structure EngineConsistent (s : State) : Prop where
  request : s.engReq = true → (runningRequest s).isSome = true
  answer : ∀ a, s.engResp = some a → s.engReq = true ∧ (runningRequest s).map engineOf = some a

/-- CODE is the decimal text of OTP in CODELEN characters, or empty, and 0x00 beyond CODELEN
(10_state.md rules R41 and R43, 41_truncate.md rule R134). -/
structure CodeConsistent (r : Regs) : Prop where
  length : r.codeLen.toNat ≤ 32
  digits : ∀ k : Fin 32, k.val < r.codeLen.toNat →
    r.code[k].toNat = 0x30 + r.otp.toNat / 10 ^ (r.codeLen.toNat - 1 - k.val) % 10
  padding : ∀ k : Fin 32, r.codeLen.toNat ≤ k.val → r.code[k] = 0x00#8
  fits : r.codeLen.toNat ≠ 0 → r.otp.toNat < 10 ^ r.codeLen.toNat

/-- The result registers stay in their ranges (10_state.md rules R37, R39 and R40). -/
structure ResultsInRange (r : Regs) : Prop where
  otp : r.otp.toNat < 10 * 2 ^ 31
  off : r.off.toNat ≤ 59
  dyn : r.dyn = true → r.off.toNat ≤ 15
  lres : r.lres.toNat ≤ 9

/-- While the reset input is asserted every piece of the block's state holds its reset value
(70_reset_and_hazards.md rule R240). -/
def ResetHeld (s : State) : Prop := s.resetIn = true → s = { resetBlock s with resetIn := true }

/-- The invariant of the block. -/
structure Inv (s : State) : Prop where
  busy : BusyConsistent s
  error : ErrorReported s
  engine : EngineConsistent s
  code : CodeConsistent s.regs
  results : ResultsInRange s.regs
  held : ResetHeld s

end Sys2Proof.Machine
end

