-- ==== Sys2Proof/Certificates/Slice0/Obligations.lean ====
section
/-! DEFINITION. Obligations.lean: the statements about the block, each with the rule of spec/ it
formalises, and the vocabulary they are written in. -/

namespace Sys2Proof.Spec

open Sys2Proof.Machine

/-! ### Vocabulary -/

/-- Everything outside the window's registers that a statement can say is unchanged: the reset input and
the model's own fields. -/
structure SameOutside (s t : State) : Prop where
  resetIn : t.resetIn = s.resetIn
  schedule : t.schedule = s.schedule
  readData : t.readData = s.readData

/-- The hidden state is unchanged (10_state.md rule R45). -/
structure SameHidden (s t : State) : Prop where
  seq : t.seq = s.seq
  engReq : t.engReq = s.engReq
  engResp : t.engResp = s.engResp

/-- Every register but the listed ones reads as before. -/
def SameRegsBut (written : Reg → Prop) (s t : State) : Prop :=
  ∀ r, ¬ written r → readReg t r = readReg s r

/-- What every completion does, whatever its result, and its frame (40_command.md rules R101, R104 and
R105): BUSY = 0, DONE = 1, the sequencer idle, ACCERR and BUSYERR as before, no register but STATUS,
ERRINFO and those written changed. -/
structure Completed (written : Reg → Prop) (s t : State) : Prop where
  busy : t.status.busy = false
  done : t.status.done = true
  accErr : t.status.accErr = s.status.accErr
  busyErr : t.status.busyErr = s.status.busyErr
  seq : t.seq = .idle
  engReq : t.engReq = false
  engResp : t.engResp = none
  frame : SameRegsBut (fun r => r = .status ∨ r = .errinfo ∨ written r) s t
  outside : SameOutside s t

/-- The command completes with success in a state `post` describes, writing no register but those of
`written`; ERR, ERRCODE and ERRINFO stay as they are (40_command.md rule R105). -/
def Succeeds (i : Instr) (s : State) (written : Reg → Prop) (post : State → Prop) : Prop :=
  ∃ t, exec i s = .next t ∧ Completed written s t ∧ t.status.err = s.status.err ∧
    t.status.errCode = s.status.errCode ∧ t.errInfo = s.errInfo ∧ post t

/-- CODE and CODELEN. -/
def isCode (r : Reg) : Prop := r = .codelen ∨ ∃ j, r = .code j

/-- The error completion of a command that is not TRUNC, HOTP or TOTP (40_command.md rule R104). -/
def FailsPlain (o : Host.Outcome State Fault Refusal) (s : State) (code sub idx : Nat) : Prop :=
  ∃ t, o = .next t ∧ Completed (fun _ => False) s t ∧ t.status.err = true ∧
    t.status.errCode.toNat = code ∧ t.errInfo.sub.toNat = sub ∧ t.errInfo.idx.toNat = idx

/-- The error completion of TRUNC, HOTP and TOTP: CODE and CODELEN become zero as well
(40_command.md rule R104). -/
def FailsCode (o : Host.Outcome State Fault Refusal) (s : State) (code sub idx : Nat) : Prop :=
  ∃ t, o = .next t ∧ Completed isCode s t ∧ t.status.err = true ∧
    t.status.errCode.toNat = code ∧ t.errInfo.sub.toNat = sub ∧ t.errInfo.idx.toNat = idx ∧
    (∀ k : Fin 32, t.regs.code[k] = 0x00#8) ∧ t.regs.codeLen.toNat = 0

/-- ALG selects an algorithm with digest length `len` (10_state.md rule R29). -/
def Selected (s : State) (a : Alg) (len : Nat) : Prop :=
  (s.regs.cfg.alg.toNat = 0 ∧ a = .sha1 ∧ len = 20) ∨
  (s.regs.cfg.alg.toNat = 1 ∧ a = .sha256 ∧ len = 32) ∨
  (s.regs.cfg.alg.toNat = 2 ∧ a = .sha512 ∧ len = 64)

/-- DIGITS is legal (10_state.md rule R27). -/
def DigitsLegal (s : State) : Prop := 1 ≤ s.regs.cfg.digits.toNat ∧ s.regs.cfg.digits.toNat ≤ 31

/-- The big-endian bytes of `n` (00_scope.md rule R10). -/
def IsBe64 (b : Vector Byte 8) (n : Nat) : Prop := ∀ j : Fin 8, b[j].toNat = n / 256 ^ (7 - j.val) % 256

/-- A digest of `len` bytes in the DIGEST buffer, 0x00 beyond (41_truncate.md rule R122). -/
def IsFilled (h d : Vector Byte 64) (len : Nat) : Prop :=
  ∀ i : Fin 64, h[i] = if i.val < len then d[i] else 0x00#8

/-- The offset and whether it is dynamic (41_truncate.md rule R130). -/
def IsOffset (t : Int) (h : Vector Byte 64) (len off : Nat) (dyn : Bool) : Prop :=
  if 0 ≤ t ∧ t ≤ (len : Int) - 5 then (off : Int) = t ∧ dyn = false
  else off = (byteAt h (len - 1)).toNat % 16 ∧ dyn = true

/-- The 31-bit window (41_truncate.md rule R131). -/
def window (h : Vector Byte 64) (off : Nat) : Nat :=
  (byteAt h off).toNat % 128 * 2 ^ 24 + (byteAt h (off + 1)).toNat * 2 ^ 16 +
    (byteAt h (off + 2)).toNat * 2 ^ 8 + (byteAt h (off + 3)).toNat

/-- A digit through the doubling rule (00_scope.md rule R12). -/
def doubled (d : Nat) : Nat := if d < 5 then 2 * d else 2 * d - 9

/-- The Luhn check digit as a sum over the decimal positions below `d`, the even ones doubled
(41_truncate.md rule R135). -/
def checkDigit (num d : Nat) : Nat :=
  (10 - ((List.range d).map fun p =>
    if p % 2 = 0 then doubled (num / 10 ^ p % 10) else num / 10 ^ p % 10).sum % 10) % 10

/-- CODE holds the decimal text of `n` in `len` characters and 0x00 beyond, and CODELEN says so
(00_scope.md rule R11, 10_state.md rules R41 and R43). -/
structure IsCodeText (r : Regs) (n len : Nat) : Prop where
  codeLen : r.codeLen.toNat = len
  text : ∀ k : Fin 32, k.val < len → r.code[k].toNat = 0x30 + n / 10 ^ (len - 1 - k.val) % 10
  rest : ∀ k : Fin 32, len ≤ k.val → r.code[k] = 0x00#8

/-- The results of a generator (HOTP, TOTP) for moving factor `c` and engine digest `d`
(42_moving_factor.md rule R160): dynamic truncation, no check digit. -/
structure Generated (s t : State) (len c : Nat) (d : Vector Byte 64) : Prop where
  msg : IsBe64 t.regs.msg c
  digest : IsFilled t.regs.digest d len
  off : t.regs.off.toNat = (byteAt d (len - 1)).toNat % 16
  dyn : t.regs.dyn = true
  truncv : t.regs.truncv.toNat = window d t.regs.off.toNat
  otp : t.regs.otp.toNat = t.regs.truncv.toNat % 10 ^ s.regs.cfg.digits.toNat
  code : IsCodeText t.regs t.regs.otp.toNat s.regs.cfg.digits.toNat

/-- The time step of `t` milliseconds (42_moving_factor.md rule R170). -/
def stepNumber (t period : Nat) : Nat :=
  (t / 1000 + if t % 1000 ≥ 500 then 1 else 0) / max period 1

/-- The value of a hexadecimal character, none for another (42_moving_factor.md rule R176). -/
def hexDigit (c : Byte) : Option Nat :=
  if 0x30 ≤ c.toNat ∧ c.toNat ≤ 0x39 then some (c.toNat - 0x30)
  else if 0x41 ≤ c.toNat ∧ c.toNat ≤ 0x46 then some (c.toNat - 55)
  else if 0x61 ≤ c.toNat ∧ c.toNat ≤ 0x66 then some (c.toNat - 87)
  else none

/-- The number `n` hexadecimal characters stand for, read left to right (42_moving_factor.md rule R176). -/
def HexNumber (h : Vector Byte 16) : Nat → Nat → Prop
  | 0, v => v = 0
  | n + 1, v => ∃ u x, HexNumber h n u ∧ hexDigit (byteAt h n) = some x ∧ v = 16 * u + x

/-- MSG. -/
def isMsg (r : Reg) : Prop := ∃ j, r = .msg j

/-- DIGEST. -/
def isDigest (r : Reg) : Prop := ∃ j, r = .digest j

/-- CTR. -/
def isCtr (r : Reg) : Prop := r = .ctrLo ∨ r = .ctrHi

/-- HEX and HEXLEN. -/
def isHexText (r : Reg) : Prop := r = .hexlen ∨ ∃ j, r = .hex j

/-- The registers of a generated code: TRUNCV, OFFUSED, OTP, CODE, CODELEN. -/
def isResult (r : Reg) : Prop :=
  r = .truncv ∨ r = .offused ∨ r = .otpLo ∨ r = .otpHi ∨ isCode r

/-- The registers each command may write (10_state.md rule R48, 30_encoding.md rule R81). -/
def mayWrite (i : Instr) (chk : Bool) (r : Reg) : Prop :=
  match i with
  | .nop => False
  | .mfenc => isMsg r
  | .hmac => isDigest r
  | .trunc => isResult r ∨ (chk = true ∧ r = .lres)
  | .luhn => r = .lres
  | .hotp => isMsg r ∨ isDigest r ∨ isResult r
  | .tstep => isCtr r
  | .hexenc => isHexText r
  | .hexdec => isCtr r
  | .totp => isCtr r ∨ isMsg r ∨ isDigest r ∨ isResult r

/-- The registers a host write stores to (10_state.md rule R48). -/
def hostStores (r : Reg) : Prop :=
  r = .cfg ∨ r = .toff ∨ r = .period ∨ r = .timeLo ∨ r = .timeHi ∨ r = .lnumLo ∨ r = .lnumHi ∨
    isCtr r ∨ isMsg r ∨ isDigest r ∨ isHexText r

/-- A 32-bit write to a register. -/
def wr (r : Reg) (v : Word) : Access := .write .w32 (BitVec.ofNat 8 (regOffset r)) v

/-- A 32-bit read of a register. -/
def rd (r : Reg) : Access := .read .w32 (BitVec.ofNat 8 (regOffset r))

/-- The next move is this host access. -/
def HostMove (a : Access) (s : State) : Prop := ∃ es, s.schedule = .host a :: es

/-- The next move is a reset: the reset input's, or a CTRL write with SRST = 1
(70_reset_and_hazards.md rules R240 and R241). -/
def ResetMove (s : State) : Prop :=
  (∃ es, s.schedule = .assertReset :: es ∨ s.schedule = .releaseReset :: es) ∨
    ∃ v : Word, HostMove (wr .ctrl v) s ∧ v.getLsbD 1 = true

/-- The sequencer can be the one to move: by its own event, by `agent`, or because nothing is scheduled
(log entry 2). -/
def SequencerMove (s : State) : Prop :=
  s.schedule = [] ∨ ∃ es, s.schedule = .sequencer :: es ∨ s.schedule = .agent :: es

/-- The step from `s` to `t` is a completion (40_command.md rule R101). -/
structure CompletionStep (s t : State) : Prop where
  move : SequencerMove s
  running : s.seq ≠ .idle
  idle : t.seq = .idle
  busy : t.status.busy = false
  done : t.status.done = true

/-- What a host access that accepts no command can do to STATUS (10_state.md rule R24): set ACCERR; set
BUSYERR while a command runs; or, a STATUS write, clear the W1C bits whose written bit is 1. -/
def HostChangesStatus (a : Access) (s t : State) : Prop :=
  t.status = { s.status with accErr := true } ∨
  (s.seq ≠ .idle ∧ t.status = { s.status with busyErr := true }) ∨
  ∃ v : Word, a = wr .status v ∧ t.status = { s.status with
    done := s.status.done && !v.getLsbD 1
    accErr := s.status.accErr && !v.getLsbD 8
    busyErr := s.status.busyErr && !v.getLsbD 9 }

/-- The reset value of a register (10_state.md rule R47). -/
def resetWord : Reg → Word
  | .id => 0x4A4F5450#32
  | .version => 0x00000001#32
  | .cfg => 0x00000006#32
  | .toff => 0xFFFFFFFF#32
  | .period => 0x0000001E#32
  | _ => 0x00000000#32

/-- The block is in its reset state (10_state.md rule R47). -/
structure IsReset (t : State) : Prop where
  regs : ∀ r, readReg t r = resetWord r
  seq : t.seq = .idle
  engReq : t.engReq = false
  engResp : t.engResp = none
  irq : irq t = false

/-- The defined bits of a plain writable register (10_state.md rules R27 to R29 and R35). -/
def definedBits : Reg → Word
  | .cfg => 0x0000313F#32
  | .hexlen => 0x0000001F#32
  | _ => 0xFFFFFFFF#32

/-- The access errors (20_memory.md rule R64), by the offsets of 10_state.md rules R21 and R46, but for a
write of 8 or 16 bits at STATUS's four bytes: of that one R64 says both, and the model's choice stands in
`Obligations.StatusRegister` (log entry 17). -/
def IsAccessError : Access → Prop
  | .read w off => w ≠ .w32 ∨ off.toNat % 4 ≠ 0 ∨ (0x70 ≤ off.toNat ∧ off.toNat ≤ 0x7C) ∨
      (0xA0 ≤ off.toNat ∧ off.toNat ≤ 0xBC)
  | .write w off _ => (w ≠ .w32 ∧ off.toNat / 4 ≠ 3) ∨ (w = .w32 ∧ off.toNat % 4 ≠ 0) ∨
      (0x70 ≤ off.toNat ∧ off.toNat ≤ 0x7C) ∨ (0xA0 ≤ off.toNat ∧ off.toNat ≤ 0xBC) ∨
      off.toNat = 0x00 ∨ off.toNat = 0x04 ∨ off.toNat = 0x14 ∨
      (0x48 ≤ off.toNat ∧ off.toNat ≤ 0x5C) ∨ (0x80 ≤ off.toNat ∧ off.toNat ≤ 0x9C)

/-- The offset of word 0 of a buffer (10_state.md rule R21). -/
def wordZero : Buf → Nat
  | .msg => 0x40
  | .hex => 0x60
  | .code => 0x80
  | .digest => 0xC0

/-- `k` steps of the block and its agents. -/
def runSteps (k : Nat) (s : State) : Host.Outcome State Fault Refusal := core.run k s

/-- Running a command with an engine `E`: it is accepted, its answer (if it asks) arrives, it completes
(40_command.md rules R100 and R101). -/
def Runs (E : EngineRequest → EngineAnswer) (i : Instr) (s t : State) : Prop :=
  ∃ u, u = accept (encode i) s ∧
    exec i { u with engReq := (requestOf i u.regs).isSome, engResp := (requestOf i u.regs).map E } = .next t

/-- The registers rule R181 compares. -/
def SameCodeRegs (t u : State) : Prop :=
  ∀ r, isCtr r ∨ isMsg r ∨ isDigest r ∨ isResult r → readReg t r = readReg u r

end Sys2Proof.Spec

open Sys2Proof Sys2Proof.Machine Sys2Proof.Spec

/-! ### Encoding -/

/-- 30_encoding.md rule R82: the ten words of the opcode map select their commands, and no other word
selects one. -/
def Obligations.TableWordsDecode : Prop :=
  decode 0x00000000#32 = .ok .nop ∧ decode 0x00000001#32 = .ok .mfenc ∧
  decode 0x00000002#32 = .ok .hmac ∧ decode 0x00000003#32 = .ok .trunc ∧
  decode 0x00000004#32 = .ok .luhn ∧ decode 0x00000005#32 = .ok .hotp ∧
  decode 0x00000006#32 = .ok .tstep ∧ decode 0x00000007#32 = .ok .hexenc ∧
  decode 0x00000008#32 = .ok .hexdec ∧ decode 0x00000009#32 = .ok .totp ∧
  ∀ w i, decode w = .ok i → w.extractLsb' 8 24 = 0#24 ∧ (w.extractLsb' 0 8).toNat ≤ 9

/-- 30_encoding.md rule R84: decoding is total, and exact on every word. -/
def Obligations.DecodeTotalOnAllWords : Prop :=
  ∀ w : Word,
    (w.extractLsb' 8 24 = 0#24 → (w.extractLsb' 0 8).toNat ≤ 9 →
      ∃ i, decode w = .ok i ∧ (opcode i).toNat = (w.extractLsb' 0 8).toNat) ∧
    (w.extractLsb' 8 24 ≠ 0#24 → decode w = .error .reservedBits) ∧
    (w.extractLsb' 8 24 = 0#24 → 9 < (w.extractLsb' 0 8).toNat → decode w = .error .opcodeReserved)

/-- Decode and encode agree on every word and every command: a word decodes to a command exactly when
it is that command's encoding (30_encoding.md rules R80 to R82). -/
def Obligations.DecodeInvertsEncode : Prop :=
  ∀ (w : Word) (i : Instr), decode w = .ok i ↔ encode i = w

/-! ### The step -/

/-- The sequencer's step (40_command.md section 1): while a word that decodes to a command runs, it is that
command's meaning at this state, the move taken off the schedule; with no move scheduled it is the
agents' own move unless the engine is to answer first. -/
def Obligations.SequencerRunsDecodedCommand : Prop :=
  ∀ (s : State) (w : Word) (i : Instr) (es : List Event),
    s.resetIn = false → s.seq = .running w → decode w = .ok i →
    (s.schedule = .sequencer :: es → step s = exec i { s with schedule := es }) ∧
    (s.schedule = [] → awaitingAnswer s = false → step s = exec i s)

/-- The model's own `withFetchWord` (log entry 12): the next step runs exactly the command of the word,
at a state that has it accepted and keeps every operand register. -/
def Obligations.FetchedWordRunsNext : Prop :=
  ∀ (s : State) (i : Instr), ∃ u, step (s.withFetchWord 32 (encode i).toNat) = exec i u ∧
    u.seq = .running (encode i) ∧ u.cmd = encode i ∧ u.regs = s.regs ∧ u.ie = s.ie ∧
    u.status.busy = true ∧ u.status.err = false ∧ u.errInfo = ErrInfo.none ∧
    u.schedule = s.schedule ∧ u.readData = s.readData ∧
    u.engResp = (requestOf i s.regs).map engineOf

/-- There is no trap (60_exceptions.md section 3): no step of any state ends in a fault or a refusal. -/
def Obligations.EveryStepGoesOn : Prop :=
  ∀ s : State, ∃ t, step s = .next t

/-- 20_memory.md rule R68: host accesses take effect one at a time in port order, and a read returns what
the write to the same register before it left. -/
def Obligations.HostAccessesInPortOrder : Prop :=
  ∀ (s : State) (a b : Access) (es : List Event), s.schedule = .host a :: .host b :: es →
    ∃ t, runSteps 2 s = .next t ∧ t = hostAccess b (hostAccess a { s with schedule := es }) ∧
      ∀ r v, s.resetIn = false → s.seq = .idle → hostStores r → a = wr r v → b = rd r →
        t.readData = v &&& definedBits r

/-- 30_encoding.md rule R83: an illegal word is accepted like any command and completes with
IllegalCommand, sub-cause 0x08 when RSVD ≠ 0 and 0x09 otherwise, with no other effect. -/
def Obligations.IllegalWordCompletesWithError : Prop :=
  ∀ (s : State) (w : Word) (es : List Event), s.resetIn = false → s.seq = .idle →
    s.schedule = .host (wr .cmd w) :: .sequencer :: es →
    (w.extractLsb' 8 24 ≠ 0#24 →
      ∃ u, step s = .next u ∧ u.seq = .running w ∧ u.cmd = w ∧ u.status.busy = true ∧
        FailsPlain (step u) { u with schedule := es } 4 0x08 0) ∧
    (w.extractLsb' 8 24 = 0#24 → 0x0A ≤ (w.extractLsb' 0 8).toNat →
      ∃ u, step s = .next u ∧ u.seq = .running w ∧ u.cmd = w ∧ u.status.busy = true ∧
        FailsPlain (step u) { u with schedule := es } 4 0x09 0)

/-! ### The command protocol -/

/-- 40_command.md rule R100: what acceptance writes, and its frame; a CMD write while a command runs is
no acceptance. -/
def Obligations.AcceptanceOfCommandWord : Prop :=
  ∀ (s t : State) (w : Word), s.resetIn = false → t = hostAccess (wr .cmd w) s →
    (s.seq = .idle →
      t.cmd = w ∧ t.status.busy = true ∧ t.status.done = false ∧ t.status.err = false ∧
      t.status.errCode = 0#4 ∧ t.status.accErr = s.status.accErr ∧ t.status.busyErr = s.status.busyErr ∧
      t.errInfo = { sub := 0x00#8, idx := 0x00#8 } ∧ t.seq = .running w ∧ t.engReq = s.engReq ∧
      t.engResp = s.engResp ∧ SameOutside s t ∧
      SameRegsBut (fun r => r = .cmd ∨ r = .status ∨ r = .errinfo) s t) ∧
    (∀ w', s.seq = .running w' → t.seq = .running w' ∧ t.cmd = s.cmd)

/-- 40_command.md rule R103: while a command runs, a write to CMD or to an RW register other than CTRL and
STATUS only sets BUSYERR; CTRL and STATUS writes are honoured, SRST aborts, an access error sets ACCERR and
not BUSYERR whether or not a command runs, and reads return the registers. -/
def Obligations.WritesWhileBusy : Prop :=
  ∀ (s : State), s.resetIn = false →
    (∀ w r v, s.seq = .running w → readOnly r = false → r ≠ .ctrl → r ≠ .status →
      hostAccess (wr r v) s = { s with status := { s.status with busyErr := true } }) ∧
    (∀ w v, s.seq = .running w → v.getLsbD 1 = false →
      hostAccess (wr .ctrl v) s = { s with ie := v.getLsbD 0 }) ∧
    (∀ w v, s.seq = .running w → v.getLsbD 1 = true → (hostAccess (wr .ctrl v) s).seq = .idle) ∧
    (∀ w v, s.seq = .running w →
      (hostAccess (wr .status v) s).status.done = (s.status.done && !v.getLsbD 1) ∧
      (hostAccess (wr .status v) s).status.accErr = (s.status.accErr && !v.getLsbD 8) ∧
      (hostAccess (wr .status v) s).status.busyErr = (s.status.busyErr && !v.getLsbD 9)) ∧
    (∀ a, IsAccessError a → (hostAccess a s).status.accErr = true ∧
      (hostAccess a s).status.busyErr = s.status.busyErr) ∧
    (∀ w r, s.seq = .running w → (hostAccess (rd r) s).readData = readReg s r)

/-- 20_memory.md rule R64: every other access sets ACCERR and changes nothing else; a read in error
returns 0. A write of 8 or 16 bits at STATUS's four bytes (0x0C to 0x0F) is left out here, for R64 says both
of it: `Obligations.StatusRegister` has it, as the model's choice (log entry 17). -/
def Obligations.AccessErrorsSetOnlyAccErr : Prop :=
  ∀ s : State, s.resetIn = false →
    (∀ w off, IsAccessError (.read w off) → hostAccess (.read w off) s =
      { s with status := { s.status with accErr := true }, readData := 0x00000000#32 }) ∧
    (∀ w off v, IsAccessError (.write w off v) → hostAccess (.write w off v) s =
      { s with status := { s.status with accErr := true } }) ∧
    (∀ v, (hostAccess (wr .status v) s).status.accErr = true → s.status.accErr = true)

/-- 20_memory.md rule R63: a legal read returns the register's value and changes nothing else; a legal
write to a plain RW register of an idle block stores its defined bits and changes no other register. -/
def Obligations.LegalAccessesReadAndStore : Prop :=
  ∀ s : State, s.resetIn = false →
    (∀ r, hostAccess (rd r) s = { s with readData := readReg s r }) ∧
    (∀ r v, s.seq = .idle → hostStores r →
      readReg (hostAccess (wr r v) s) r = v &&& definedBits r ∧
      SameRegsBut (fun r' => r' = r) s (hostAccess (wr r v) s) ∧
      SameHidden s (hostAccess (wr r v) s) ∧ SameOutside s (hostAccess (wr r v) s))

/-- 20_memory.md rule R62: bytes lie big-endian in words, 64-bit pairs as LO and HI, and MSG0 is CTR_HI
after MFENC. -/
def Obligations.BytesPackedBigEndian : Prop :=
  (∀ (s : State) (j : Fin 16) (b : Fin 4),
    (readReg s (.digest j)).extractLsb' (24 - 8 * b.val) 8 = byteAt s.regs.digest (4 * j.val + b.val)) ∧
  (∀ (s : State) (j : Fin 8) (b : Fin 4),
    (readReg s (.code j)).extractLsb' (24 - 8 * b.val) 8 = byteAt s.regs.code (4 * j.val + b.val)) ∧
  (∀ (s : State) (j : Fin 4) (b : Fin 4),
    (readReg s (.hex j)).extractLsb' (24 - 8 * b.val) 8 = byteAt s.regs.hex (4 * j.val + b.val)) ∧
  (∀ (s : State) (j : Fin 2) (b : Fin 4),
    (readReg s (.msg j)).extractLsb' (24 - 8 * b.val) 8 = byteAt s.regs.msg (4 * j.val + b.val)) ∧
  (∀ s : State, (readReg s .id).extractLsb' 24 8 = 0x4A#8) ∧
  (∀ s : State, readReg s .ctrHi ++ readReg s .ctrLo = s.regs.ctr ∧
    readReg s .timeHi ++ readReg s .timeLo = s.regs.time ∧
    readReg s .lnumHi ++ readReg s .lnumLo = s.regs.lnum ∧
    readReg s .otpHi ++ readReg s .otpLo = s.regs.otp) ∧
  (∀ s : State, ∃ t, exec .mfenc s = .next t ∧ readReg t (.msg 0) = readReg s .ctrHi)

/-- The fields of the registers stand at their bits and the reserved bits read 0 (10_state.md sections 3
to 6). -/
def Obligations.FieldsStandAtTheirBits : Prop :=
  ∀ s : State,
    (readReg s .errinfo).toNat = 256 * s.errInfo.idx.toNat + s.errInfo.sub.toNat ∧
    (readReg s .cfg).extractLsb' 0 6 = s.regs.cfg.digits ∧ (readReg s .cfg).getLsbD 8 = s.regs.cfg.chk ∧
    (readReg s .cfg).extractLsb' 12 2 = s.regs.cfg.alg ∧ readReg s .cfg &&& 0xFFFFCEC0#32 = 0#32 ∧
    (readReg s .hexlen).toNat = s.regs.hexLen.toNat ∧ (readReg s .truncv).toNat = s.regs.truncv.toNat ∧
    (readReg s .offused).extractLsb' 0 6 = s.regs.off ∧ (readReg s .offused).getLsbD 8 = s.regs.dyn ∧
    readReg s .offused &&& 0xFFFFFEC0#32 = 0#32 ∧
    (readReg s .lres).toNat = s.regs.lres.toNat ∧ (readReg s .codelen).toNat = s.regs.codeLen.toNat

/-- 10_state.md rule R22: ID and VERSION are hard-wired, and a write to either is an access error. -/
def Obligations.IdentificationIsHardWired : Prop :=
  ∀ s : State, readReg s .id = 0x4A4F5450#32 ∧ readReg s .version = 0x00000001#32 ∧
    (s.resetIn = false → ∀ v,
      hostAccess (wr .id v) s = { s with status := { s.status with accErr := true } } ∧
      hostAccess (wr .version v) s = { s with status := { s.status with accErr := true } })

/-- 10_state.md rule R23: CTRL holds IE in bit 0, SRST and the reserved bits read 0, a write without SRST
stores IE only, a write with SRST resets, busy or not. -/
def Obligations.ControlRegister : Prop :=
  ∀ s : State,
    (readReg s .ctrl).getLsbD 0 = s.ie ∧ (readReg s .ctrl).extractLsb' 1 31 = 0#31 ∧
    (s.resetIn = false → ∀ v : Word,
      (v.getLsbD 1 = false → hostAccess (wr .ctrl v) s = { s with ie := v.getLsbD 0 }) ∧
      (v.getLsbD 1 = true → IsReset (hostAccess (wr .ctrl v) s)))

/-- A host write to STATUS clears each W1C bit whose written bit is 1 and changes nothing else; the
register's fields stand at their bits (10_state.md section 3). A write of 8 or 16 bits at its bytes is an
access error: the model's choice, log entry 17. -/
def Obligations.StatusRegister : Prop :=
  ∀ s : State,
    (readReg s .status).getLsbD 0 = s.status.busy ∧ (readReg s .status).getLsbD 1 = s.status.done ∧
    (readReg s .status).getLsbD 2 = s.status.err ∧ (readReg s .status).getLsbD 3 = false ∧
    (readReg s .status).extractLsb' 4 4 = s.status.errCode ∧
    (readReg s .status).getLsbD 8 = s.status.accErr ∧ (readReg s .status).getLsbD 9 = s.status.busyErr ∧
    (readReg s .status).extractLsb' 10 22 = 0#22 ∧
    (s.resetIn = false → ∀ v : Word, hostAccess (wr .status v) s =
      { s with status := { s.status with
          done := s.status.done && !v.getLsbD 1
          accErr := s.status.accErr && !v.getLsbD 8
          busyErr := s.status.busyErr && !v.getLsbD 9 } }) ∧
    (s.resetIn = false → ∀ w off v, w ≠ .w32 → off.toNat / 4 = 3 → hostAccess (.write w off v) s =
      { s with status := { s.status with accErr := true } })

/-- 20_memory.md rule R66: a read has no side effect; a write changes no register but its own, and every
access is idempotent, but for CMD and CTRL.SRST (a write dropped while a command runs shows in STATUS). -/
def Obligations.AccessesTouchOnlyTheirRegister : Prop :=
  ∀ s : State, s.resetIn = false →
    (∀ r, hostAccess (rd r) s = { s with readData := readReg s r } ∧
      hostAccess (rd r) (hostAccess (rd r) s) = hostAccess (rd r) s) ∧
    (∀ (r : Reg) (v : Word), readOnly r = false → r ≠ .cmd → (r = .ctrl → v.getLsbD 1 = false) →
      SameRegsBut (fun r' => r' = r ∨ (r' = .status ∧ r ≠ .ctrl ∧ s.seq ≠ .idle)) s
        (hostAccess (wr r v) s) ∧
      SameHidden s (hostAccess (wr r v) s) ∧ SameOutside s (hostAccess (wr r v) s) ∧
      hostAccess (wr r v) (hostAccess (wr r v) s) = hostAccess (wr r v) s)

/-! ### Reset -/

/-- 10_state.md rule R47: the reset value of every register and of the hidden state. -/
def Obligations.ResetValuesOfTheSpec : Prop := IsReset State.reset ∧ State.reset.resetIn = false

/-- 70_reset_and_hazards.md rule R241: the soft reset, busy or not, from any state; the aborted command
commits nothing, DONE is not set, and a later engine answer is discarded. -/
def Obligations.SoftResetRestoresResetState : Prop :=
  ∀ (s t : State) (v : Word), s.resetIn = false → v.getLsbD 1 = true → t = hostAccess (wr .ctrl v) s →
    IsReset t ∧ SameOutside s t ∧
    (∀ es, step { t with schedule := .engine :: es } = .next { t with schedule := es }) ∧
    (∀ es, step { t with schedule := .lateAnswer :: es } = .next { t with schedule := es })

/-- 70_reset_and_hazards.md rule R240: asserting reset, what happens while it is asserted, and its
release. -/
def Obligations.HardwareResetHoldsAndReleases : Prop :=
  ∀ (s : State) (es : List Event),
    (∃ t, step { s with schedule := .assertReset :: es } = .next t ∧ IsReset t ∧ t.resetIn = true ∧
      t.schedule = es ∧
      (∀ w off, hostAccess (.read w off) t = { t with readData := 0x00000000#32 }) ∧
      (∀ w off v, hostAccess (.write w off v) t = t) ∧
      engineStep t = t ∧ sequencerStep t = .next t ∧ agentStep t = .next t) ∧
    (s.resetIn = true →
      ∃ t, step { s with schedule := .releaseReset :: es } = .next t ∧ IsReset t ∧ t.resetIn = false ∧
        t.schedule = es ∧ (∀ w, (hostAccess (wr .cmd w) t).seq = .running w) ∧
        ∀ r, (hostAccess (rd r) t).readData = resetWord r)

/-- The reset state is a legal configuration for every command but HEXDEC, which finds HEXLEN = 0
(70_reset_and_hazards.md section 2). -/
def Obligations.ResetStateIsLegalConfiguration : Prop :=
  (∀ (i : Instr) (d : Vector Byte 64), i ≠ .hexdec →
    ∃ t, exec i { accept (encode i) State.reset with engResp := some (.digest d) } = .next t ∧
      t.seq = .idle ∧ t.status.err = false ∧ t.status.done = true) ∧
  FailsPlain (exec .hexdec (accept (encode .hexdec) State.reset)) (accept (encode .hexdec) State.reset) 1 0x05 0

/-! ### Errors, interrupt, agents -/

/-- Of the error codes of 60_exceptions.md section 1, STATUS and ERRINFO show only those of the tables, and
each sub-cause under its kind. -/
def Obligations.OnlyTabledErrorCodesAppear : Prop :=
  ∀ s : State, Inv s →
    (s.status.errCode.toNat, s.errInfo.sub.toNat) ∈
      [(0, 0x00), (1, 0x01), (1, 0x02), (1, 0x03), (1, 0x04), (1, 0x05), (1, 0x06), (1, 0x07), (4, 0x08),
        (4, 0x09), (2, 0x0A), (3, 0x0B)] ∧
    (s.status.err = true ↔ s.status.errCode.toNat ≠ 0) ∧
    (s.errInfo.idx.toNat ≠ 0 → s.errInfo.sub.toNat = 0x07) ∧ s.errInfo.idx.toNat ≤ 15

/-- 60_exceptions.md rule R206: the interrupt line, its only source, and what clears it. -/
def Obligations.InterruptLine : Prop :=
  ∀ s : State,
    (irq s = true ↔ s.ie = true ∧ s.status.done = true) ∧
    (∀ cp r, irq (complete cp r s) = s.ie) ∧
    (∀ t, step s = .next t → s.status.done = false → t.status.done = true →
      s.seq ≠ .idle ∧ t.seq = .idle) ∧
    (s.resetIn = false →
      (∀ v : Word, v.getLsbD 1 = true → irq (hostAccess (wr .status v) s) = false) ∧
      (∀ w, s.seq = .idle → irq (hostAccess (wr .cmd w) s) = false) ∧
      (∀ v : Word, v.getLsbD 0 = false ∨ v.getLsbD 1 = true → irq (hostAccess (wr .ctrl v) s) = false) ∧
      (∀ a, IsAccessError a → irq (hostAccess a s) = irq s) ∧
      (∀ w r v, s.seq = .running w → readOnly r = false → r ≠ .ctrl → r ≠ .status →
        irq (hostAccess (wr r v) s) = irq s)) ∧
    irq (assertReset s) = false

/-- ACCERR and BUSYERR are left only by a host write of 1 to them or by reset
(60_exceptions.md section 3). -/
def Obligations.StickyBitsClearedOnlyByHostOrReset : Prop :=
  ∀ s t : State, step s = .next t →
    (s.status.accErr = true → t.status.accErr = false →
      ∃ es, s.schedule = .assertReset :: es ∨ s.schedule = .releaseReset :: es ∨
        (∃ v : Word, s.schedule = .host (wr .status v) :: es ∧ v.getLsbD 8 = true) ∨
        (∃ v : Word, s.schedule = .host (wr .ctrl v) :: es ∧ v.getLsbD 1 = true)) ∧
    (s.status.busyErr = true → t.status.busyErr = false →
      ∃ es, s.schedule = .assertReset :: es ∨ s.schedule = .releaseReset :: es ∨
        (∃ v : Word, s.schedule = .host (wr .status v) :: es ∧ v.getLsbD 9 = true) ∨
        (∃ v : Word, s.schedule = .host (wr .ctrl v) :: es ∧ v.getLsbD 1 = true))

/-- A host access and a completion in one cycle act as the access first, so completion's DONE = 1 overrides a
W1C of DONE in the same cycle (60_exceptions.md section 4). The spec says so of a host write; that a read
comes first too is the model's reading (DEDUCED, log entry 15). -/
def Obligations.CompletionWinsOverSameCycleClear : Prop :=
  ∀ (s : State) (es : List Event),
    (∀ a : Access, s.schedule = sameCycle a ++ es → ∃ u t, step s = .next u ∧
      runSteps 2 s = .next t ∧ sequencerStep (hostAccess a { s with schedule := es }) = .next t) ∧
    (∀ w v : Word, s.resetIn = false → s.seq = .running w →
      (runningRequest s = none ∨ s.engResp ≠ none) → s.schedule = sameCycle (wr .status v) ++ es →
      ∃ t, runSteps 2 s = .next t ∧ t.status.done = true ∧ t.seq = .idle)

/-- Progress (40_command.md rule R102, under the assumption of 92_eei_decisions.md D27): with no other
move scheduled, every accepted command completes, within three moves of the agents. -/
def Obligations.AcceptedCommandCompletes : Prop :=
  ∀ (s : State) (w : Word), s.resetIn = false → s.seq = .running w → s.schedule = [] →
    ∃ k t, 1 ≤ k ∧ k ≤ 3 ∧ runSteps k s = .next t ∧ t.seq = .idle ∧ t.status.busy = false ∧
      t.status.done = true ∧ t.cmd = s.cmd ∧ t.ie = s.ie

/-- A command's writes are committed in one step: a move of the sequencer, the engine or the agents, the one
they make with nothing scheduled among them, leaves every register as it is, or completes the command with
BUSY = 0 and DONE = 1 (20_memory.md section 5). -/
def Obligations.NoPartialResultIsVisible : Prop :=
  ∀ (s t : State) (w : Word), s.seq = .running w →
    SequencerMove s ∨ (∃ es, s.schedule = .engine :: es) → step s = .next t →
    (t.seq = .running w ∧ ∀ r, readReg t r = readReg s r) ∨
    (t.seq = .idle ∧ t.status.busy = false ∧ t.status.done = true)

/-- Who writes each register (10_state.md section 7): a register changes in a step only by reset; by a host
write to it; CMD, STATUS and ERRINFO by an acceptance; STATUS by a host access; STATUS, and on an error
ERRINFO, by a completion; or by the completion of a command that may write it, with its result on success
and, CODE and CODELEN alone, with zero on error. -/
def Obligations.RegistersChangeOnlyByTheirWriters : Prop :=
  ∀ (s t : State) (r : Reg), step s = .next t → readReg t r ≠ readReg s r →
    ResetMove s ∨
    (∃ v, HostMove (wr r v) s ∧ (r = .ctrl ∨ (hostStores r ∧ s.seq = .idle))) ∨
    (∃ v, HostMove (wr .cmd v) s ∧ s.seq = .idle ∧ t.seq = .running v ∧
      (r = .cmd ∨ r = .status ∨ r = .errinfo)) ∨
    (∃ a, HostMove a s ∧ r = .status ∧ HostChangesStatus a s t) ∨
    (CompletionStep s t ∧ (r = .status ∨ (r = .errinfo ∧ t.status.err = true))) ∨
    (∃ w i, CompletionStep s t ∧ s.seq = .running w ∧ decode w = .ok i ∧ mayWrite i s.regs.cfg.chk r ∧
      ((t.status.err = s.status.err ∧ t.errInfo = s.errInfo) ∨
        (t.status.err = true ∧ isCode r ∧ readReg t r = 0x00000000#32)))

/-- The engine port (41_truncate.md section 2): an answer is stored while a request is outstanding, is the
oracle's value for it (CryptoUnavailable outside ENGINE_ALGS), and is discarded otherwise; a command issues
at most one request. That the request is issued in a step of its own, which only sets eng_req, is the
model's reading (DEDUCED, log entry 13). -/
def Obligations.EngineAnswersOutstandingRequestOnly : Prop :=
  ∀ (s : State) (w : Word) (i : Instr), s.resetIn = false → s.seq = .running w → decode w = .ok i →
    (∀ q, requestOf i s.regs = some q → s.engReq = true → s.engResp = none →
      engineStep s = { s with engResp := some (engineOf q) }) ∧
    (s.engReq = false → engineStep s = s) ∧
    (∀ q, requestOf i s.regs = some q → s.engResp = none → exec i s = .next { s with engReq := true }) ∧
    (∀ t, exec i s = .next t → t.engReq = true → t = { s with engReq := true } ∧
      ∃ q, requestOf i s.regs = some q) ∧
    (∀ q, Config.engineAlgs q.alg = false → engineOf q = .cryptoUnavailable)

/-! ### The commands -/

/-- 40_command.md rule R106: NOP completes in every state and writes no register; accepted and completed,
it leaves no error, a previous one included, sets DONE, and raises IRQ when IE = 1. -/
def Obligations.NopOnlyCompletes : Prop :=
  ∀ s : State, Succeeds .nop s (fun _ => False) (fun t => t.regs = s.regs) ∧
    (s.resetIn = false → s.seq = .idle → ∃ t, exec .nop (hostAccess (wr .cmd 0x00000000#32) s) = .next t ∧
      t.status = { s.status with busy := false, done := true, err := false, errCode := 0#4 } ∧
      t.errInfo = { sub := 0x00#8, idx := 0x00#8 } ∧ t.cmd = 0x00000000#32 ∧ t.seq = .idle ∧
      t.regs = s.regs ∧ t.ie = s.ie ∧ irq t = s.ie)

/-- 41_truncate.md rule R120: MFENC writes the big-endian bytes of CTR to MSG, in every state. -/
def Obligations.MfencEncodesMovingFactor : Prop :=
  ∀ s : State, Succeeds .mfenc s isMsg fun t =>
    IsBe64 t.regs.msg s.regs.ctr.toNat ∧ readReg t (.msg 0) = readReg s .ctrHi ∧
    readReg t (.msg 1) = readReg s .ctrLo

/-- 41_truncate.md rule R122: HMAC checks ALG with no request made, asks the engine for (ALG, MSG), and
stores the digest with zeros above it or reports the engine's error. -/
def Obligations.HmacStoresEngineDigest : Prop :=
  ∀ s : State,
    (s.regs.cfg.alg.toNat = 3 → FailsPlain (exec .hmac s) s 1 0x03 0 ∧ requestOf .hmac s.regs = none) ∧
    (∀ a len, Selected s a len →
      requestOf .hmac s.regs = some { alg := a, msg := s.regs.msg } ∧
      (s.engResp = some .cryptoUnavailable → FailsPlain (exec .hmac s) s 2 0x0A 0) ∧
      (s.engResp = some .invalidKey → FailsPlain (exec .hmac s) s 3 0x0B 0) ∧
      (∀ d, s.engResp = some (.digest d) →
        Succeeds .hmac s isDigest fun t => IsFilled t.regs.digest d len))

/-- 41_truncate.md rule R129: TRUNC's checks in order, and its results: offset, 31-bit value, exact
reduction, the check digit when CHK = 1, and the decimal text. -/
def Obligations.TruncProducesCode : Prop :=
  ∀ s : State,
    (s.regs.cfg.alg.toNat = 3 → FailsCode (exec .trunc s) s 1 0x03 0) ∧
    (s.regs.cfg.alg.toNat ≠ 3 → s.regs.cfg.digits.toNat = 0 → FailsCode (exec .trunc s) s 1 0x01 0) ∧
    (s.regs.cfg.alg.toNat ≠ 3 → 31 < s.regs.cfg.digits.toNat → FailsCode (exec .trunc s) s 1 0x02 0) ∧
    (∀ a len, Selected s a len → DigitsLegal s → s.regs.cfg.chk = false →
      Succeeds .trunc s isResult fun t =>
        IsOffset s.regs.toff.toInt s.regs.digest len t.regs.off.toNat t.regs.dyn ∧
        t.regs.truncv.toNat = window s.regs.digest t.regs.off.toNat ∧
        t.regs.otp.toNat = t.regs.truncv.toNat % 10 ^ s.regs.cfg.digits.toNat ∧
        IsCodeText t.regs t.regs.otp.toNat s.regs.cfg.digits.toNat) ∧
    (∀ a len, Selected s a len → DigitsLegal s → s.regs.cfg.chk = true →
      Succeeds .trunc s (fun r => isResult r ∨ r = .lres) fun t =>
        IsOffset s.regs.toff.toInt s.regs.digest len t.regs.off.toNat t.regs.dyn ∧
        t.regs.truncv.toNat = window s.regs.digest t.regs.off.toNat ∧
        t.regs.lres.toNat = checkDigit (t.regs.truncv.toNat % 10 ^ s.regs.cfg.digits.toNat)
          s.regs.cfg.digits.toNat ∧
        t.regs.otp.toNat =
          t.regs.truncv.toNat % 10 ^ s.regs.cfg.digits.toNat * 10 + t.regs.lres.toNat ∧
        IsCodeText t.regs t.regs.otp.toNat (s.regs.cfg.digits.toNat + 1))

/-- 41_truncate.md rule R140: LUHN checks DIGITS alone and writes the check digit of LNUM. -/
def Obligations.LuhnWritesCheckDigit : Prop :=
  ∀ s : State,
    (s.regs.cfg.digits.toNat = 0 → FailsPlain (exec .luhn s) s 1 0x01 0) ∧
    (31 < s.regs.cfg.digits.toNat → FailsPlain (exec .luhn s) s 1 0x02 0) ∧
    (DigitsLegal s → Succeeds .luhn s (fun r => r = .lres) fun t =>
      t.regs.lres.toNat = checkDigit s.regs.lnum.toNat s.regs.cfg.digits.toNat)

/-- 42_moving_factor.md rule R160: HOTP's checks in order, its request, the engine's errors, and its
results; CTR and LRES are among the registers it leaves. -/
def Obligations.HotpGeneratesCode : Prop :=
  ∀ s : State,
    (s.regs.cfg.alg.toNat = 3 →
      FailsCode (exec .hotp s) s 1 0x03 0 ∧ requestOf .hotp s.regs = none) ∧
    (s.regs.cfg.alg.toNat ≠ 3 → s.regs.cfg.digits.toNat = 0 →
      FailsCode (exec .hotp s) s 1 0x01 0 ∧ requestOf .hotp s.regs = none) ∧
    (s.regs.cfg.alg.toNat ≠ 3 → 31 < s.regs.cfg.digits.toNat →
      FailsCode (exec .hotp s) s 1 0x02 0 ∧ requestOf .hotp s.regs = none) ∧
    (∀ a len, Selected s a len → DigitsLegal s →
      (∃ m, requestOf .hotp s.regs = some { alg := a, msg := m } ∧ IsBe64 m s.regs.ctr.toNat) ∧
      (s.engResp = some .cryptoUnavailable → FailsCode (exec .hotp s) s 2 0x0A 0) ∧
      (s.engResp = some .invalidKey → FailsCode (exec .hotp s) s 3 0x0B 0) ∧
      (∀ d, s.engResp = some (.digest d) →
        Succeeds .hotp s (fun r => isMsg r ∨ isDigest r ∨ isResult r) fun t =>
          Generated s t len s.regs.ctr.toNat d))

/-- 42_moving_factor.md rule R170: TSTEP refuses a negative TIME and otherwise writes the time step,
below 2^54, to CTR. -/
def Obligations.TstepDerivesTimeStep : Prop :=
  ∀ s : State,
    (s.regs.time.toInt < 0 → FailsPlain (exec .tstep s) s 1 0x04 0) ∧
    (∀ t0 : Nat, s.regs.time.toInt = t0 → Succeeds .tstep s isCtr fun t =>
      t.regs.ctr.toNat = stepNumber t0 s.regs.period.toNat ∧ t.regs.ctr.toNat < 2 ^ 54)

/-- 42_moving_factor.md rule R175: HEXENC writes CTR as 16 lower-case characters, in every state. -/
def Obligations.HexencWritesText : Prop :=
  ∀ s : State, Succeeds .hexenc s isHexText fun t =>
    t.regs.hexLen.toNat = 16 ∧ ∀ k : Fin 16, ∃ v, v = s.regs.ctr.toNat / 16 ^ (15 - k.val) % 16 ∧
      t.regs.hex[k].toNat = if v < 10 then 0x30 + v else 0x61 + (v - 10)

/-- 42_moving_factor.md rule R176: HEXDEC's checks in order with the lowest offending index, and the
number its characters stand for. -/
def Obligations.HexdecReadsText : Prop :=
  ∀ s : State,
    (s.regs.hexLen.toNat = 0 → FailsPlain (exec .hexdec s) s 1 0x05 0) ∧
    (16 < s.regs.hexLen.toNat → FailsPlain (exec .hexdec s) s 1 0x06 0) ∧
    (1 ≤ s.regs.hexLen.toNat → s.regs.hexLen.toNat ≤ 16 →
      (∀ k : Nat, k < s.regs.hexLen.toNat → hexDigit (byteAt s.regs.hex k) = none →
        (∀ j, j < k → hexDigit (byteAt s.regs.hex j) ≠ none) →
        FailsPlain (exec .hexdec s) s 1 0x07 k) ∧
      ((∀ k, k < s.regs.hexLen.toNat → hexDigit (byteAt s.regs.hex k) ≠ none) →
        Succeeds .hexdec s isCtr fun t => HexNumber s.regs.hex s.regs.hexLen.toNat t.regs.ctr.toNat))

/-- 42_moving_factor.md rule R180: TOTP's checks in order, its request, the engine's errors, and its
results, with CTR written on success only. -/
def Obligations.TotpGeneratesCode : Prop :=
  ∀ s : State,
    (s.regs.cfg.alg.toNat = 3 →
      FailsCode (exec .totp s) s 1 0x03 0 ∧ requestOf .totp s.regs = none) ∧
    (s.regs.cfg.alg.toNat ≠ 3 → s.regs.cfg.digits.toNat = 0 →
      FailsCode (exec .totp s) s 1 0x01 0 ∧ requestOf .totp s.regs = none) ∧
    (s.regs.cfg.alg.toNat ≠ 3 → 31 < s.regs.cfg.digits.toNat →
      FailsCode (exec .totp s) s 1 0x02 0 ∧ requestOf .totp s.regs = none) ∧
    (s.regs.cfg.alg.toNat ≠ 3 → DigitsLegal s → s.regs.time.toInt < 0 →
      FailsCode (exec .totp s) s 1 0x04 0 ∧ requestOf .totp s.regs = none) ∧
    (∀ a len (t0 : Nat), Selected s a len → DigitsLegal s → s.regs.time.toInt = t0 →
      (∃ m, requestOf .totp s.regs = some { alg := a, msg := m } ∧
        IsBe64 m (stepNumber t0 s.regs.period.toNat)) ∧
      (s.engResp = some .cryptoUnavailable → FailsCode (exec .totp s) s 2 0x0A 0) ∧
      (s.engResp = some .invalidKey → FailsCode (exec .totp s) s 3 0x0B 0) ∧
      (∀ d, s.engResp = some (.digest d) →
        Succeeds .totp s (fun r => isCtr r ∨ isMsg r ∨ isDigest r ∨ isResult r) fun t =>
          Generated s t len (stepNumber t0 s.regs.period.toNat) d ∧
          t.regs.ctr.toNat = stepNumber t0 s.regs.period.toNat))

/-! ### The functions of the datapath -/

/-- 00_scope.md rule R10: `be64` is the 8-byte big-endian encoding, and it loses nothing. -/
def Obligations.BigEndianEncodingIsExact : Prop :=
  ∀ n : Nat, n < 2 ^ 64 → IsBe64 (be64 n) n ∧
    (be64 n).toList.foldl (fun v b => 256 * v + b.toNat) 0 = n

/-- 41_truncate.md rule R131: the window is the 31-bit big-endian value, and every index it reads lies in
the digest. -/
def Obligations.TruncationWindowInDigest : Prop :=
  ∀ (t : Int) (h : Vector Byte 64) (a : Alg) (off : Nat) (dyn : Bool),
    selectOffset t h (digestLen a) = (off, dyn) →
    off + 3 ≤ digestLen a - 2 ∧ (dyn = true → off + 3 ≤ 18) ∧
    (extract31 h off).toNat = window h off ∧ window h off ≤ 2 ^ 31 - 1

/-- 41_truncate.md rule R130, with the digest lengths of 10_state.md rule R29: the fixed offset
exactly when `0 ≤ t ≤ L−5`, else the low nibble of the digest's last byte. -/
def Obligations.OffsetSelection : Prop :=
  digestLen .sha1 = 20 ∧ digestLen .sha256 = 32 ∧ digestLen .sha512 = 64 ∧
  ∀ (t : Int) (h : Vector Byte 64) (a : Alg),
    IsOffset t h (digestLen a) (selectOffset t h (digestLen a)).1 (selectOffset t h (digestLen a)).2

/-- 41_truncate.md rules R132 and R133: the reduction is exact at every digit count and changes nothing
from ten digits on; OTP with and without the check digit, its length and its bounds. -/
def Obligations.ReductionIsExact : Prop :=
  ∀ (s t : State) (a : Alg) (len : Nat), Selected s a len → DigitsLegal s → exec .trunc s = .next t →
    ∃ otp0, otp0 = t.regs.truncv.toNat % 10 ^ s.regs.cfg.digits.toNat ∧
      (10 ≤ s.regs.cfg.digits.toNat → otp0 = t.regs.truncv.toNat) ∧
      (s.regs.cfg.chk = false →
        t.regs.otp.toNat = otp0 ∧ t.regs.codeLen.toNat = s.regs.cfg.digits.toNat) ∧
      (s.regs.cfg.chk = true →
        t.regs.otp.toNat = otp0 * 10 + luhn otp0 s.regs.cfg.digits.toNat ∧
        t.regs.codeLen.toNat = s.regs.cfg.digits.toNat + 1) ∧
      t.regs.otp.toNat < 10 ^ t.regs.codeLen.toNat ∧ t.regs.otp.toNat ≤ (2 ^ 31 - 1) * 10 + 9

/-- 41_truncate.md rule R135: the Luhn function, its table, its digit count and its worked examples. -/
def Obligations.LuhnFunction : Prop :=
  (∀ num d : Nat, luhn num d = checkDigit num d ∧ luhn num d ≤ 9 ∧ luhn num d = luhn (num % 10 ^ d) d) ∧
  luhn 10000 4 = 0 ∧ luhn 10000 6 = 8

/-- 00_scope.md rule R11: the text is `len` characters '0' to '9' that read back as the number, then
zeros. -/
def Obligations.DecimalTextReadsBack : Prop :=
  ∀ n len : Nat, len ≤ 32 → n < 10 ^ len →
    (∀ k : Fin 32, k.val < len → 0x30 ≤ (decText n len)[k].toNat ∧ (decText n len)[k].toNat ≤ 0x39) ∧
    (∀ k : Fin 32, len ≤ k.val → (decText n len)[k] = 0x00#8) ∧
    ((decText n len).toList.take len).foldl (fun v c => 10 * v + (c.toNat - 0x30)) 0 = n

/-- 42_moving_factor.md rule R172: the closed form of the time step, and the bucket law. -/
def Obligations.TimeStepBucketLaw : Prop :=
  ∀ s : State, ∀ t0 p : Nat, s.regs.time.toInt = t0 → p = max s.regs.period.toNat 1 →
    ∃ t, exec .tstep s = .next t ∧ t.regs.ctr.toNat = (t0 + 500) / (1000 * p) ∧
      (∀ k, 1 ≤ k → (t.regs.ctr.toNat = k ↔ 1000 * p * k - 500 ≤ t0 ∧ t0 < 1000 * p * (k + 1) - 500)) ∧
      (t.regs.ctr.toNat = 0 ↔ t0 < 1000 * p - 500) ∧
      (∀ (s' : State) (k : Nat), 1 ≤ k → t0 = 1000 * p * k - 501 → s'.regs.time.toInt = (t0 : Int) + 1 →
        s'.regs.period = s.regs.period →
        ∃ t', exec .tstep s' = .next t' ∧ t'.regs.ctr.toNat = t.regs.ctr.toNat + 1)

/-- 42_moving_factor.md rule R177: HEXENC followed by HEXDEC leaves CTR as it was. -/
def Obligations.HexTextRoundTrip : Prop :=
  ∀ (E : EngineRequest → EngineAnswer) (s : State), ∃ t u,
    Runs E .hexenc s t ∧ t.regs.hexLen.toNat = 16 ∧ Runs E .hexdec t u ∧ u.regs.ctr = s.regs.ctr ∧
    u.status.err = false

/-- 42_moving_factor.md rule R176, a corner case: a short string reads as if left-padded with '0' to 16. -/
def Obligations.ShortHexTextReadsAsPadded : Prop :=
  ∀ (s s' t t' : State) (n : Nat), 1 ≤ n → n ≤ 16 → s.regs.hexLen.toNat = n → s'.regs.hexLen.toNat = 16 →
    (∀ k, k < 16 - n → byteAt s'.regs.hex k = 0x30#8) →
    (∀ k, k < n → byteAt s'.regs.hex (16 - n + k) = byteAt s.regs.hex k) →
    (∀ k, k < n → hexDigit (byteAt s.regs.hex k) ≠ none) →
    exec .hexdec s = .next t → exec .hexdec s' = .next t' → t'.regs.ctr = t.regs.ctr

/-- 42_moving_factor.md rule R181: TOTP leaves the same code registers as TSTEP then HOTP, and as TSTEP,
HEXENC, HEXDEC and HOTP, when no command fails; the longer sequence alone changes HEX and HEXLEN; when the
engine fails, TOTP leaves CTR and TSTEP has written it. -/
def Obligations.TotpIsHotpOfTimeStep : Prop :=
  ∀ (E : EngineRequest → EngineAnswer) (s : State) (a : Alg) (len t0 : Nat),
    Selected s a len → DigitsLegal s → s.regs.time.toInt = t0 →
    ∃ t s1 u s2 s3 v,
      Runs E .totp s t ∧ Runs E .tstep s s1 ∧ Runs E .hotp s1 u ∧
      Runs E .hexenc s1 s2 ∧ Runs E .hexdec s2 s3 ∧ Runs E .hotp s3 v ∧
      t.regs.hex = s.regs.hex ∧ u.regs.hex = s.regs.hex ∧ t.regs.hexLen = s.regs.hexLen ∧
      u.regs.hexLen = s.regs.hexLen ∧ v.regs.hex = s2.regs.hex ∧ v.regs.hexLen.toNat = 16 ∧
      ((∃ d, E { alg := a, msg := be64 (stepNumber t0 s.regs.period.toNat) } = .digest d) →
        SameCodeRegs t u ∧ SameCodeRegs t v ∧ t.status.err = false ∧ u.status.err = false ∧
        v.status.err = false) ∧
      (¬ (∃ d, E { alg := a, msg := be64 (stepNumber t0 s.regs.period.toNat) } = .digest d) →
        t.regs.ctr = s.regs.ctr ∧ u.regs.ctr.toNat = stepNumber t0 s.regs.period.toNat)

/-! ### The platform and host programs -/

/-- The window is 256-byte aligned, holds exactly the addresses BASE to BASE + 0xFF, and an address in it
has its offset (20_memory.md section 1). -/
def Obligations.WindowAddresses : Prop :=
  base % 256 = 0 ∧ (∀ off : BitVec 8, windowOffset (base + off.toNat) = some off) ∧
  (∀ addr, windowOffset addr = none ↔ addr < base ∨ base + 0xFF < addr)

/-- 30_encoding.md rule R86: the expansion of the pseudo-instructions; `WAIT` reads STATUS once and goes on
while BUSY = 1. -/
def Obligations.PseudoInstructionsExpand : Prop :=
  (∀ i : Instr, expandLine (.cmd i) = [.host (.write .w32 0x10#8 (0#24 ++ opcode i))]) ∧
  (∀ v : DWord,
    expandLine (.wr64 .time v) =
      [.host (wr .timeLo (v.extractLsb' 0 32)), .host (wr .timeHi (v.extractLsb' 32 32))] ∧
    expandLine (.wr64 .ctr v) =
      [.host (wr .ctrLo (v.extractLsb' 0 32)), .host (wr .ctrHi (v.extractLsb' 32 32))] ∧
    expandLine (.wr64 .lnum v) =
      [.host (wr .lnumLo (v.extractLsb' 0 32)), .host (wr .lnumHi (v.extractLsb' 32 32))] ∧
    expandLine (.wr64 .otp v) =
      [.host (wr .otpLo (v.extractLsb' 0 32)), .host (wr .otpHi (v.extractLsb' 32 32))]) ∧
  (∀ (b : Buf) (bytes : List Byte) (j : Nat), (HostLine.wrbuf b bytes).wellFormed = true →
    4 * j < bytes.length → (expandLine (.wrbuf b bytes)).length = bytes.length / 4 ∧
    (expandLine (.wrbuf b bytes))[j]? =
      some (.host (.write .w32 (BitVec.ofNat 8 (wordZero b + 4 * j))
        (bytes.getD (4 * j) 0#8 ++ bytes.getD (4 * j + 1) 0#8 ++ bytes.getD (4 * j + 2) 0#8 ++
          bytes.getD (4 * j + 3) 0#8)))) ∧
  (∀ (s : State) (es : List Event), s.resetIn = false → s.schedule = expandLine .wait ++ es →
    step s = .next { s with
      readData := readReg s .status
      schedule := if s.status.busy then .agent :: .wait :: es else es })

/-! ### Invariant -/

/-- The invariant holds right after reset. -/
def Obligations.ResetMeetsInvariant : Prop := Inv State.reset

/-- Every step keeps the invariant, from every state that meets it: STATUS, ERRINFO, CMD and the hidden
state agree, a stored engine answer is the oracle's, CODE is the text of OTP with zeros beyond CODELEN,
the results stay in range, and reset holds the block. That eng_req stays true while an answer is stored is
the model's reading (DEDUCED, log entry 13). -/
def Obligations.EveryStepKeepsInvariant : Prop :=
  ∀ s t : State, Inv s → step s = .next t → Inv t
end

