-- ==== Sys2Proof/Laws/State.lean ====
section
/-! SUPPORT. State.lean: one lemma for each field of each update, so that no later proof unfolds a record
update. Generated from the updates of Ops.lean, Flags.lean, Truncate.lean. -/

namespace Sys2Proof.Machine

/-! ### State -/

@[simp] theorem accept_ie (w : Word) (s : State) : (accept w s).ie = s.ie := rfl
@[simp] theorem accept_status (w : Word) (s : State) : (accept w s).status = statusAccepted s.status := rfl
@[simp] theorem accept_cmd (w : Word) (s : State) : (accept w s).cmd = w := rfl
@[simp] theorem accept_errInfo (w : Word) (s : State) : (accept w s).errInfo = ErrInfo.none := rfl
@[simp] theorem accept_regs (w : Word) (s : State) : (accept w s).regs = s.regs := rfl
@[simp] theorem accept_seq (w : Word) (s : State) : (accept w s).seq = .running w := rfl
@[simp] theorem accept_engReq (w : Word) (s : State) : (accept w s).engReq = s.engReq := rfl
@[simp] theorem accept_engResp (w : Word) (s : State) : (accept w s).engResp = s.engResp := rfl
@[simp] theorem accept_resetIn (w : Word) (s : State) : (accept w s).resetIn = s.resetIn := rfl
@[simp] theorem accept_schedule (w : Word) (s : State) : (accept w s).schedule = s.schedule := rfl
@[simp] theorem accept_readData (w : Word) (s : State) : (accept w s).readData = s.readData := rfl

@[simp] theorem completeOk_ie (r : Regs) (s : State) : (completeOk r s).ie = s.ie := rfl
@[simp] theorem completeOk_status (r : Regs) (s : State) : (completeOk r s).status = statusOk s.status := rfl
@[simp] theorem completeOk_cmd (r : Regs) (s : State) : (completeOk r s).cmd = s.cmd := rfl
@[simp] theorem completeOk_errInfo (r : Regs) (s : State) : (completeOk r s).errInfo = s.errInfo := rfl
@[simp] theorem completeOk_regs (r : Regs) (s : State) : (completeOk r s).regs = r := rfl
@[simp] theorem completeOk_seq (r : Regs) (s : State) : (completeOk r s).seq = .idle := rfl
@[simp] theorem completeOk_engReq (r : Regs) (s : State) : (completeOk r s).engReq = false := rfl
@[simp] theorem completeOk_engResp (r : Regs) (s : State) : (completeOk r s).engResp = none := rfl
@[simp] theorem completeOk_resetIn (r : Regs) (s : State) : (completeOk r s).resetIn = s.resetIn := rfl
@[simp] theorem completeOk_schedule (r : Regs) (s : State) : (completeOk r s).schedule = s.schedule := rfl
@[simp] theorem completeOk_readData (r : Regs) (s : State) : (completeOk r s).readData = s.readData := rfl

@[simp] theorem completeError_ie (c : Bool) (e : CmdError) (s : State) : (completeError c e s).ie = s.ie := rfl
@[simp] theorem completeError_status (c : Bool) (e : CmdError) (s : State) : (completeError c e s).status = statusError e s.status := rfl
@[simp] theorem completeError_cmd (c : Bool) (e : CmdError) (s : State) : (completeError c e s).cmd = s.cmd := rfl
@[simp] theorem completeError_errInfo (c : Bool) (e : CmdError) (s : State) : (completeError c e s).errInfo = errInfoOf e := rfl
@[simp] theorem completeError_regs (c : Bool) (e : CmdError) (s : State) : (completeError c e s).regs = (if c then clearCode s.regs else s.regs) := rfl
@[simp] theorem completeError_seq (c : Bool) (e : CmdError) (s : State) : (completeError c e s).seq = .idle := rfl
@[simp] theorem completeError_engReq (c : Bool) (e : CmdError) (s : State) : (completeError c e s).engReq = false := rfl
@[simp] theorem completeError_engResp (c : Bool) (e : CmdError) (s : State) : (completeError c e s).engResp = none := rfl
@[simp] theorem completeError_resetIn (c : Bool) (e : CmdError) (s : State) : (completeError c e s).resetIn = s.resetIn := rfl
@[simp] theorem completeError_schedule (c : Bool) (e : CmdError) (s : State) : (completeError c e s).schedule = s.schedule := rfl
@[simp] theorem completeError_readData (c : Bool) (e : CmdError) (s : State) : (completeError c e s).readData = s.readData := rfl

@[simp] theorem resetBlock_ie (s : State) : (resetBlock s).ie = false := rfl
@[simp] theorem resetBlock_status (s : State) : (resetBlock s).status = Status.reset := rfl
@[simp] theorem resetBlock_cmd (s : State) : (resetBlock s).cmd = 0x00000000#32 := rfl
@[simp] theorem resetBlock_errInfo (s : State) : (resetBlock s).errInfo = ErrInfo.none := rfl
@[simp] theorem resetBlock_regs (s : State) : (resetBlock s).regs = Regs.reset := rfl
@[simp] theorem resetBlock_seq (s : State) : (resetBlock s).seq = .idle := rfl
@[simp] theorem resetBlock_engReq (s : State) : (resetBlock s).engReq = false := rfl
@[simp] theorem resetBlock_engResp (s : State) : (resetBlock s).engResp = none := rfl
@[simp] theorem resetBlock_resetIn (s : State) : (resetBlock s).resetIn = s.resetIn := rfl
@[simp] theorem resetBlock_schedule (s : State) : (resetBlock s).schedule = s.schedule := rfl
@[simp] theorem resetBlock_readData (s : State) : (resetBlock s).readData = s.readData := rfl

@[simp] theorem assertReset_ie (s : State) : (assertReset s).ie = false := rfl
@[simp] theorem assertReset_status (s : State) : (assertReset s).status = Status.reset := rfl
@[simp] theorem assertReset_cmd (s : State) : (assertReset s).cmd = 0x00000000#32 := rfl
@[simp] theorem assertReset_errInfo (s : State) : (assertReset s).errInfo = ErrInfo.none := rfl
@[simp] theorem assertReset_regs (s : State) : (assertReset s).regs = Regs.reset := rfl
@[simp] theorem assertReset_seq (s : State) : (assertReset s).seq = .idle := rfl
@[simp] theorem assertReset_engReq (s : State) : (assertReset s).engReq = false := rfl
@[simp] theorem assertReset_engResp (s : State) : (assertReset s).engResp = none := rfl
@[simp] theorem assertReset_resetIn (s : State) : (assertReset s).resetIn = true := rfl
@[simp] theorem assertReset_schedule (s : State) : (assertReset s).schedule = s.schedule := rfl
@[simp] theorem assertReset_readData (s : State) : (assertReset s).readData = s.readData := rfl

@[simp] theorem accessError_ie (s : State) : (accessError s).ie = s.ie := rfl
@[simp] theorem accessError_status (s : State) : (accessError s).status = { s.status with accErr := true } := rfl
@[simp] theorem accessError_cmd (s : State) : (accessError s).cmd = s.cmd := rfl
@[simp] theorem accessError_errInfo (s : State) : (accessError s).errInfo = s.errInfo := rfl
@[simp] theorem accessError_regs (s : State) : (accessError s).regs = s.regs := rfl
@[simp] theorem accessError_seq (s : State) : (accessError s).seq = s.seq := rfl
@[simp] theorem accessError_engReq (s : State) : (accessError s).engReq = s.engReq := rfl
@[simp] theorem accessError_engResp (s : State) : (accessError s).engResp = s.engResp := rfl
@[simp] theorem accessError_resetIn (s : State) : (accessError s).resetIn = s.resetIn := rfl
@[simp] theorem accessError_schedule (s : State) : (accessError s).schedule = s.schedule := rfl
@[simp] theorem accessError_readData (s : State) : (accessError s).readData = s.readData := rfl

@[simp] theorem dropWrite_ie (s : State) : (dropWrite s).ie = s.ie := rfl
@[simp] theorem dropWrite_status (s : State) : (dropWrite s).status = { s.status with busyErr := true } := rfl
@[simp] theorem dropWrite_cmd (s : State) : (dropWrite s).cmd = s.cmd := rfl
@[simp] theorem dropWrite_errInfo (s : State) : (dropWrite s).errInfo = s.errInfo := rfl
@[simp] theorem dropWrite_regs (s : State) : (dropWrite s).regs = s.regs := rfl
@[simp] theorem dropWrite_seq (s : State) : (dropWrite s).seq = s.seq := rfl
@[simp] theorem dropWrite_engReq (s : State) : (dropWrite s).engReq = s.engReq := rfl
@[simp] theorem dropWrite_engResp (s : State) : (dropWrite s).engResp = s.engResp := rfl
@[simp] theorem dropWrite_resetIn (s : State) : (dropWrite s).resetIn = s.resetIn := rfl
@[simp] theorem dropWrite_schedule (s : State) : (dropWrite s).schedule = s.schedule := rfl
@[simp] theorem dropWrite_readData (s : State) : (dropWrite s).readData = s.readData := rfl

@[simp] theorem writeStatus_ie (v : Word) (s : State) : (writeStatus v s).ie = s.ie := rfl
@[simp] theorem writeStatus_status (v : Word) (s : State) : (writeStatus v s).status = statusCleared v s.status := rfl
@[simp] theorem writeStatus_cmd (v : Word) (s : State) : (writeStatus v s).cmd = s.cmd := rfl
@[simp] theorem writeStatus_errInfo (v : Word) (s : State) : (writeStatus v s).errInfo = s.errInfo := rfl
@[simp] theorem writeStatus_regs (v : Word) (s : State) : (writeStatus v s).regs = s.regs := rfl
@[simp] theorem writeStatus_seq (v : Word) (s : State) : (writeStatus v s).seq = s.seq := rfl
@[simp] theorem writeStatus_engReq (v : Word) (s : State) : (writeStatus v s).engReq = s.engReq := rfl
@[simp] theorem writeStatus_engResp (v : Word) (s : State) : (writeStatus v s).engResp = s.engResp := rfl
@[simp] theorem writeStatus_resetIn (v : Word) (s : State) : (writeStatus v s).resetIn = s.resetIn := rfl
@[simp] theorem writeStatus_schedule (v : Word) (s : State) : (writeStatus v s).schedule = s.schedule := rfl
@[simp] theorem writeStatus_readData (v : Word) (s : State) : (writeStatus v s).readData = s.readData := rfl

/-! ### STATUS -/

@[simp] theorem statusAccepted_busy (s : Status) : (statusAccepted s).busy = true := rfl
@[simp] theorem statusAccepted_done (s : Status) : (statusAccepted s).done = false := rfl
@[simp] theorem statusAccepted_err (s : Status) : (statusAccepted s).err = false := rfl
@[simp] theorem statusAccepted_errCode (s : Status) : (statusAccepted s).errCode = 0#4 := rfl
@[simp] theorem statusAccepted_accErr (s : Status) : (statusAccepted s).accErr = s.accErr := rfl
@[simp] theorem statusAccepted_busyErr (s : Status) : (statusAccepted s).busyErr = s.busyErr := rfl

@[simp] theorem statusOk_busy (s : Status) : (statusOk s).busy = false := rfl
@[simp] theorem statusOk_done (s : Status) : (statusOk s).done = true := rfl
@[simp] theorem statusOk_err (s : Status) : (statusOk s).err = s.err := rfl
@[simp] theorem statusOk_errCode (s : Status) : (statusOk s).errCode = s.errCode := rfl
@[simp] theorem statusOk_accErr (s : Status) : (statusOk s).accErr = s.accErr := rfl
@[simp] theorem statusOk_busyErr (s : Status) : (statusOk s).busyErr = s.busyErr := rfl

@[simp] theorem statusError_busy (e : CmdError) (s : Status) : (statusError e s).busy = false := rfl
@[simp] theorem statusError_done (e : CmdError) (s : Status) : (statusError e s).done = true := rfl
@[simp] theorem statusError_err (e : CmdError) (s : Status) : (statusError e s).err = true := rfl
@[simp] theorem statusError_errCode (e : CmdError) (s : Status) : (statusError e s).errCode = errCodeOf e := rfl
@[simp] theorem statusError_accErr (e : CmdError) (s : Status) : (statusError e s).accErr = s.accErr := rfl
@[simp] theorem statusError_busyErr (e : CmdError) (s : Status) : (statusError e s).busyErr = s.busyErr := rfl

@[simp] theorem statusCleared_busy (v : Word) (s : Status) : (statusCleared v s).busy = s.busy := rfl
@[simp] theorem statusCleared_done (v : Word) (s : Status) : (statusCleared v s).done = (s.done && !v.getLsbD 1) := rfl
@[simp] theorem statusCleared_err (v : Word) (s : Status) : (statusCleared v s).err = s.err := rfl
@[simp] theorem statusCleared_errCode (v : Word) (s : Status) : (statusCleared v s).errCode = s.errCode := rfl
@[simp] theorem statusCleared_accErr (v : Word) (s : Status) : (statusCleared v s).accErr = (s.accErr && !v.getLsbD 8) := rfl
@[simp] theorem statusCleared_busyErr (v : Word) (s : Status) : (statusCleared v s).busyErr = (s.busyErr && !v.getLsbD 9) := rfl

/-! ### Registers -/

@[simp] theorem clearCode_cfg (r : Regs) : (clearCode r).cfg = r.cfg := rfl
@[simp] theorem clearCode_toff (r : Regs) : (clearCode r).toff = r.toff := rfl
@[simp] theorem clearCode_period (r : Regs) : (clearCode r).period = r.period := rfl
@[simp] theorem clearCode_hexLen (r : Regs) : (clearCode r).hexLen = r.hexLen := rfl
@[simp] theorem clearCode_time (r : Regs) : (clearCode r).time = r.time := rfl
@[simp] theorem clearCode_ctr (r : Regs) : (clearCode r).ctr = r.ctr := rfl
@[simp] theorem clearCode_lnum (r : Regs) : (clearCode r).lnum = r.lnum := rfl
@[simp] theorem clearCode_msg (r : Regs) : (clearCode r).msg = r.msg := rfl
@[simp] theorem clearCode_otp (r : Regs) : (clearCode r).otp = r.otp := rfl
@[simp] theorem clearCode_truncv (r : Regs) : (clearCode r).truncv = r.truncv := rfl
@[simp] theorem clearCode_off (r : Regs) : (clearCode r).off = r.off := rfl
@[simp] theorem clearCode_dyn (r : Regs) : (clearCode r).dyn = r.dyn := rfl
@[simp] theorem clearCode_lres (r : Regs) : (clearCode r).lres = r.lres := rfl
@[simp] theorem clearCode_codeLen (r : Regs) : (clearCode r).codeLen = 0#6 := rfl
@[simp] theorem clearCode_hex (r : Regs) : (clearCode r).hex = r.hex := rfl
@[simp] theorem clearCode_code (r : Regs) : (clearCode r).code = Vector.replicate 32 0x00#8 := rfl
@[simp] theorem clearCode_digest (r : Regs) : (clearCode r).digest = r.digest := rfl

@[simp] theorem storeCode_cfg (r : Regs) (b : BitVec 31) (o : Nat) (y : Bool) (n l : Nat) : (storeCode r b o y n l).cfg = r.cfg := rfl
@[simp] theorem storeCode_toff (r : Regs) (b : BitVec 31) (o : Nat) (y : Bool) (n l : Nat) : (storeCode r b o y n l).toff = r.toff := rfl
@[simp] theorem storeCode_period (r : Regs) (b : BitVec 31) (o : Nat) (y : Bool) (n l : Nat) : (storeCode r b o y n l).period = r.period := rfl
@[simp] theorem storeCode_hexLen (r : Regs) (b : BitVec 31) (o : Nat) (y : Bool) (n l : Nat) : (storeCode r b o y n l).hexLen = r.hexLen := rfl
@[simp] theorem storeCode_time (r : Regs) (b : BitVec 31) (o : Nat) (y : Bool) (n l : Nat) : (storeCode r b o y n l).time = r.time := rfl
@[simp] theorem storeCode_ctr (r : Regs) (b : BitVec 31) (o : Nat) (y : Bool) (n l : Nat) : (storeCode r b o y n l).ctr = r.ctr := rfl
@[simp] theorem storeCode_lnum (r : Regs) (b : BitVec 31) (o : Nat) (y : Bool) (n l : Nat) : (storeCode r b o y n l).lnum = r.lnum := rfl
@[simp] theorem storeCode_msg (r : Regs) (b : BitVec 31) (o : Nat) (y : Bool) (n l : Nat) : (storeCode r b o y n l).msg = r.msg := rfl
@[simp] theorem storeCode_otp (r : Regs) (b : BitVec 31) (o : Nat) (y : Bool) (n l : Nat) : (storeCode r b o y n l).otp = BitVec.ofNat 64 n := rfl
@[simp] theorem storeCode_truncv (r : Regs) (b : BitVec 31) (o : Nat) (y : Bool) (n l : Nat) : (storeCode r b o y n l).truncv = b := rfl
@[simp] theorem storeCode_off (r : Regs) (b : BitVec 31) (o : Nat) (y : Bool) (n l : Nat) : (storeCode r b o y n l).off = BitVec.ofNat 6 o := rfl
@[simp] theorem storeCode_dyn (r : Regs) (b : BitVec 31) (o : Nat) (y : Bool) (n l : Nat) : (storeCode r b o y n l).dyn = y := rfl
@[simp] theorem storeCode_lres (r : Regs) (b : BitVec 31) (o : Nat) (y : Bool) (n l : Nat) : (storeCode r b o y n l).lres = r.lres := rfl
@[simp] theorem storeCode_codeLen (r : Regs) (b : BitVec 31) (o : Nat) (y : Bool) (n l : Nat) : (storeCode r b o y n l).codeLen = BitVec.ofNat 6 l := rfl
@[simp] theorem storeCode_hex (r : Regs) (b : BitVec 31) (o : Nat) (y : Bool) (n l : Nat) : (storeCode r b o y n l).hex = r.hex := rfl
@[simp] theorem storeCode_code (r : Regs) (b : BitVec 31) (o : Nat) (y : Bool) (n l : Nat) : (storeCode r b o y n l).code = decText n l := rfl
@[simp] theorem storeCode_digest (r : Regs) (b : BitVec 31) (o : Nat) (y : Bool) (n l : Nat) : (storeCode r b o y n l).digest = r.digest := rfl

@[simp] theorem mfencRegs_cfg (r : Regs) : (mfencRegs r).cfg = r.cfg := rfl
@[simp] theorem mfencRegs_toff (r : Regs) : (mfencRegs r).toff = r.toff := rfl
@[simp] theorem mfencRegs_period (r : Regs) : (mfencRegs r).period = r.period := rfl
@[simp] theorem mfencRegs_hexLen (r : Regs) : (mfencRegs r).hexLen = r.hexLen := rfl
@[simp] theorem mfencRegs_time (r : Regs) : (mfencRegs r).time = r.time := rfl
@[simp] theorem mfencRegs_ctr (r : Regs) : (mfencRegs r).ctr = r.ctr := rfl
@[simp] theorem mfencRegs_lnum (r : Regs) : (mfencRegs r).lnum = r.lnum := rfl
@[simp] theorem mfencRegs_msg (r : Regs) : (mfencRegs r).msg = be64 r.ctr.toNat := rfl
@[simp] theorem mfencRegs_otp (r : Regs) : (mfencRegs r).otp = r.otp := rfl
@[simp] theorem mfencRegs_truncv (r : Regs) : (mfencRegs r).truncv = r.truncv := rfl
@[simp] theorem mfencRegs_off (r : Regs) : (mfencRegs r).off = r.off := rfl
@[simp] theorem mfencRegs_dyn (r : Regs) : (mfencRegs r).dyn = r.dyn := rfl
@[simp] theorem mfencRegs_lres (r : Regs) : (mfencRegs r).lres = r.lres := rfl
@[simp] theorem mfencRegs_codeLen (r : Regs) : (mfencRegs r).codeLen = r.codeLen := rfl
@[simp] theorem mfencRegs_hex (r : Regs) : (mfencRegs r).hex = r.hex := rfl
@[simp] theorem mfencRegs_code (r : Regs) : (mfencRegs r).code = r.code := rfl
@[simp] theorem mfencRegs_digest (r : Regs) : (mfencRegs r).digest = r.digest := rfl

end Sys2Proof.Machine
end

