-- ==== Sys2Proof/Laws/Operands.lean ====
section
/-! SUPPORT. Operands.lean: the laws of the register map and of the packing of bytes, halves and fields
(10_state.md rules R21 to R29, 20_memory.md rules R62 to R65). -/

namespace Sys2Proof.Machine

/-! ### Bytes and words -/

theorem byteAt_ofFn {n : Nat} (f : Fin n → Byte) (i : Nat) (h : i < n) :
    byteAt (Vector.ofFn f) i = f ⟨i, h⟩ := by
  simp [byteAt, h]

theorem byteAt_eq_get {n : Nat} (v : Vector Byte n) (i : Nat) (h : i < n) : byteAt v i = v[i] := by
  simp [byteAt, h]

/-- A byte of a packed word is the buffer's byte (20_memory.md rule R62). -/
theorem wordByte_bufWord {n : Nat} (v : Vector Byte n) (j b : Nat) (h : b < 4) :
    wordByte (bufWord v j) b = byteAt v (4 * j + b) := by
  have hb : b = 0 ∨ b = 1 ∨ b = 2 ∨ b = 3 := by omega
  apply BitVec.eq_of_getLsbD_eq
  intro i hi
  rcases hb with rfl | rfl | rfl | rfl <;>
    simp [wordByte, bufWord, hi] <;> grind

/-- A word is its four bytes, the most significant first. -/
theorem append_wordBytes (w : Word) :
    wordByte w 0 ++ wordByte w 1 ++ wordByte w 2 ++ wordByte w 3 = w := by
  apply BitVec.eq_of_getLsbD_eq
  intro i hi
  simp only [wordByte, BitVec.getLsbD_append, BitVec.getLsbD_extractLsb']
  grind

theorem byteAt_setBufWord {n : Nat} (v : Vector Byte n) (j : Nat) (w : Word) (k : Nat) (h : k < n) :
    byteAt (setBufWord v j w) k = if k / 4 = j then wordByte w (k % 4) else byteAt v k := by
  rw [setBufWord, byteAt_ofFn _ _ h, byteAt_eq_get _ _ h]
  rfl

/-- Reading a word just written gives it back. -/
theorem bufWord_setBufWord_same {n : Nat} (v : Vector Byte n) (j : Nat) (w : Word)
    (h : 4 * j + 3 < n) : bufWord (setBufWord v j w) j = w := by
  rw [← append_wordBytes w]
  simp only [bufWord]
  rw [byteAt_setBufWord _ _ _ _ (by omega), byteAt_setBufWord _ _ _ _ (by omega),
    byteAt_setBufWord _ _ _ _ (by omega), byteAt_setBufWord _ _ _ _ (by omega)]
  rw [if_pos (by omega), if_pos (by omega), if_pos (by omega), if_pos (by omega)]
  rw [show 4 * j % 4 = 0 by omega, show (4 * j + 1) % 4 = 1 by omega,
    show (4 * j + 2) % 4 = 2 by omega, show (4 * j + 3) % 4 = 3 by omega, append_wordBytes]

/-- Writing one word leaves every other. -/
theorem bufWord_setBufWord_ne {n : Nat} (v : Vector Byte n) (j k : Nat) (w : Word)
    (hk : 4 * k + 3 < n) (hne : k ≠ j) : bufWord (setBufWord v j w) k = bufWord v k := by
  simp only [bufWord]
  rw [byteAt_setBufWord _ _ _ _ (by omega), byteAt_setBufWord _ _ _ _ (by omega),
    byteAt_setBufWord _ _ _ _ (by omega), byteAt_setBufWord _ _ _ _ (by omega)]
  rw [if_neg (by omega), if_neg (by omega), if_neg (by omega), if_neg (by omega)]

/-! ### Halves -/

theorem getLsbD_loHalf (x : DWord) (i : Nat) : (loHalf x).getLsbD i = (decide (i < 32) && x.getLsbD i) := by
  simp [loHalf]

theorem getLsbD_hiHalf (x : DWord) (i : Nat) :
    (hiHalf x).getLsbD i = (decide (i < 32) && x.getLsbD (32 + i)) := by
  simp [hiHalf]

theorem getLsbD_setLoHalf (x : DWord) (v : Word) (i : Nat) :
    (setLoHalf x v).getLsbD i = if i < 32 then v.getLsbD i else x.getLsbD i := by
  change BitVec.getLsbD (w := 32 + 32) (hiHalf x ++ v) i = _
  simp only [BitVec.getLsbD_append, getLsbD_hiHalf]
  grind

theorem getLsbD_setHiHalf (x : DWord) (v : Word) (i : Nat) :
    (setHiHalf x v).getLsbD i = if i < 32 then x.getLsbD i else v.getLsbD (i - 32) := by
  change BitVec.getLsbD (w := 32 + 32) (v ++ loHalf x) i = _
  simp only [BitVec.getLsbD_append, getLsbD_loHalf]
  grind

@[simp] theorem loHalf_setLoHalf (x : DWord) (v : Word) : loHalf (setLoHalf x v) = v := by
  apply BitVec.eq_of_getLsbD_eq
  intro i hi
  simp only [getLsbD_loHalf, getLsbD_setLoHalf]
  grind

@[simp] theorem hiHalf_setLoHalf (x : DWord) (v : Word) : hiHalf (setLoHalf x v) = hiHalf x := by
  apply BitVec.eq_of_getLsbD_eq
  intro i hi
  simp only [getLsbD_hiHalf, getLsbD_setLoHalf]
  grind

@[simp] theorem hiHalf_setHiHalf (x : DWord) (v : Word) : hiHalf (setHiHalf x v) = v := by
  apply BitVec.eq_of_getLsbD_eq
  intro i hi
  simp only [getLsbD_hiHalf, getLsbD_setHiHalf]
  grind

@[simp] theorem loHalf_setHiHalf (x : DWord) (v : Word) : loHalf (setHiHalf x v) = loHalf x := by
  apply BitVec.eq_of_getLsbD_eq
  intro i hi
  simp only [getLsbD_loHalf, getLsbD_setHiHalf]
  grind

@[simp] theorem setLoHalf_setLoHalf (x : DWord) (v v' : Word) :
    setLoHalf (setLoHalf x v) v' = setLoHalf x v' := by
  simp only [setLoHalf]
  rw [show hiHalf (hiHalf x ++ v) = hiHalf x from hiHalf_setLoHalf _ _]

@[simp] theorem setHiHalf_setHiHalf (x : DWord) (v v' : Word) :
    setHiHalf (setHiHalf x v) v' = setHiHalf x v' := by
  simp only [setHiHalf]
  rw [show loHalf (v ++ loHalf x) = loHalf x from loHalf_setHiHalf _ _]

/-- A 64-bit register is its two halves (00_scope.md rule R6). -/
theorem hiHalf_append_loHalf (x : DWord) : hiHalf x ++ loHalf x = x := by
  apply BitVec.eq_of_getLsbD_eq
  intro i hi
  simp only [BitVec.getLsbD_append, getLsbD_loHalf, getLsbD_hiHalf]
  grind

theorem toNat_wordByte_hiHalf (x : DWord) (b : Nat) (h : b < 4) :
    (wordByte (hiHalf x) b).toNat = x.toNat / 256 ^ (7 - b) % 256 := by
  rcases (by omega : b = 0 ∨ b = 1 ∨ b = 2 ∨ b = 3) with rfl | rfl | rfl | rfl <;>
    simp only [wordByte, hiHalf, BitVec.extractLsb'_toNat, Nat.shiftRight_eq_div_pow] <;> omega

theorem toNat_wordByte_loHalf (x : DWord) (b : Nat) (h : b < 4) :
    (wordByte (loHalf x) b).toNat = x.toNat / 256 ^ (3 - b) % 256 := by
  rcases (by omega : b = 0 ∨ b = 1 ∨ b = 2 ∨ b = 3) with rfl | rfl | rfl | rfl <;>
    simp only [wordByte, loHalf, BitVec.extractLsb'_toNat, Nat.shiftRight_eq_div_pow] <;> omega

theorem toNat_byteAt_be64 (n j : Nat) (h : j < 8) :
    (byteAt (be64 n) j).toNat = n / 256 ^ (7 - j) % 256 := by
  rw [be64, byteAt_ofFn _ _ h]
  simp

/-- The first word of the encoded factor is its high half (20_memory.md rule R62). -/
theorem bufWord_be64_hi (x : DWord) : bufWord (be64 x.toNat) 0 = hiHalf x := by
  rw [← append_wordBytes (hiHalf x)]
  simp only [bufWord]
  congr 3 <;> apply BitVec.eq_of_toNat_eq <;>
    rw [toNat_byteAt_be64 _ _ (by omega), toNat_wordByte_hiHalf _ _ (by omega)]

/-- The second word of the encoded factor is its low half (20_memory.md rule R62). -/
theorem bufWord_be64_lo (x : DWord) : bufWord (be64 x.toNat) 1 = loHalf x := by
  rw [← append_wordBytes (loHalf x)]
  simp only [bufWord]
  congr 3 <;> apply BitVec.eq_of_toNat_eq <;>
    rw [toNat_byteAt_be64 _ _ (by omega), toNat_wordByte_loHalf _ _ (by omega)]

/-! ### Fields -/

/-- The bits of CFG as read (10_state.md rules R27 to R29). -/
theorem getLsbD_cfgWord (c : Cfg) (i : Nat) : (cfgWord c).getLsbD i =
    if i < 6 then c.digits.getLsbD i else if i = 8 then c.chk
    else if 12 ≤ i ∧ i < 14 then c.alg.getLsbD (i - 12) else false := by
  change BitVec.getLsbD (w := 18 + 2 + 3 + 1 + 2 + 6)
    (0#18 ++ c.alg ++ 0#3 ++ BitVec.ofBool c.chk ++ 0#2 ++ c.digits) i = _
  simp only [BitVec.getLsbD_append, BitVec.getLsbD_ofBool, BitVec.getLsbD_zero]
  grind

/-- The bits of STATUS as read (10_state.md rule R24). -/
theorem getLsbD_statusWord (s : Status) (i : Nat) : (statusWord s).getLsbD i =
    if i = 0 then s.busy else if i = 1 then s.done else if i = 2 then s.err
    else if 4 ≤ i ∧ i < 8 then s.errCode.getLsbD (i - 4)
    else if i = 8 then s.accErr else if i = 9 then s.busyErr else false := by
  change BitVec.getLsbD (w := 22 + 1 + 1 + 4 + 1 + 1 + 1 + 1)
    (0#22 ++ BitVec.ofBool s.busyErr ++ BitVec.ofBool s.accErr ++ s.errCode ++ 0#1 ++
      BitVec.ofBool s.err ++ BitVec.ofBool s.done ++ BitVec.ofBool s.busy) i = _
  simp only [BitVec.getLsbD_append, BitVec.getLsbD_ofBool, BitVec.getLsbD_zero]
  rcases Nat.lt_or_ge i 10 with h | h
  · interval_cases i <;> simp
  · grind (splits := 20)

/-- The bits of CTRL as read (10_state.md rule R23). -/
theorem getLsbD_ctrlWord (ie : Bool) (i : Nat) : (ctrlWord ie).getLsbD i = (decide (i = 0) && ie) := by
  change BitVec.getLsbD (w := 31 + 1) (0#31 ++ BitVec.ofBool ie) i = _
  simp only [BitVec.getLsbD_append, BitVec.getLsbD_ofBool, BitVec.getLsbD_zero]
  grind

/-- CFG keeps exactly its defined bits (10_state.md rules R27 to R29). -/
theorem cfgWord_cfgOfWord (w : Word) : cfgWord (cfgOfWord w) = w &&& 0x0000313F#32 := by
  apply BitVec.eq_of_getLsbD_eq
  intro i hi
  rw [getLsbD_cfgWord, BitVec.getLsbD_and]
  interval_cases i <;> simp [cfgOfWord]

/-- HEXLEN keeps exactly its defined bits (10_state.md rule R35). -/
theorem hexlenWord_extract (w : Word) : (0#27 ++ w.extractLsb' 0 5 : Word) = w &&& 0x0000001F#32 := by
  apply BitVec.eq_of_getLsbD_eq
  intro i hi
  simp only [BitVec.getLsbD_append, BitVec.getLsbD_zero, BitVec.getLsbD_and, BitVec.getLsbD_extractLsb']
  interval_cases i <;> simp

/-! ### The register map -/

theorem regAt_regOffset (r : Reg) : regAt (BitVec.ofNat 8 (regOffset r)) = some r := by
  cases r with
  | msg j => revert j; decide
  | hex j => revert j; decide
  | code j => revert j; decide
  | digest j => revert j; decide
  | _ => decide

theorem regOffset_aligned (r : Reg) : (BitVec.ofNat 8 (regOffset r)).extractLsb' 0 2 = 0#2 := by
  cases r with
  | msg j => revert j; decide
  | hex j => revert j; decide
  | code j => revert j; decide
  | digest j => revert j; decide
  | _ => decide

theorem regOffset_lt (r : Reg) : regOffset r < 256 := by
  cases r with
  | msg j => simp only [regOffset]; omega
  | hex j => simp only [regOffset]; omega
  | code j => simp only [regOffset]; omega
  | digest j => simp only [regOffset]; omega
  | _ => decide

/-- An aligned 32-bit access at a register's offset addresses that register. -/
@[simp] theorem addressed_regOffset (r : Reg) :
    addressed .w32 (BitVec.ofNat 8 (regOffset r)) = some r := by
  simp [addressed, regOffset_aligned, regAt_regOffset]

/-- An access addresses a register only in that form (20_memory.md rule R63). -/
theorem addressed_eq_some {w : Width} {off : BitVec 8} {r : Reg} (h : addressed w off = some r) :
    w = .w32 ∧ off = BitVec.ofNat 8 (regOffset r) := by
  cases w with
  | w8 => cases h
  | w16 => cases h
  | w32 =>
    refine ⟨rfl, ?_⟩
    simp only [addressed] at h
    split at h
    · have hr := List.find?_some h
      simp only [beq_iff_eq] at hr
      apply BitVec.eq_of_toNat_eq
      rw [BitVec.toNat_ofNat, Nat.mod_eq_of_lt (regOffset_lt r)]
      exact hr.symm
    · cases h

/-- Two registers at one offset are one register. -/
theorem regOffset_injective {r r' : Reg} (h : regOffset r = regOffset r') : r = r' := by
  have := regAt_regOffset r
  rw [h, regAt_regOffset r'] at this
  exact (Option.some.inj this).symm

/-! ### Storing one register -/

/-- A store to a register leaves what every other register reads (20_memory.md rules R63 and R65). -/
theorem readReg_storeReg_ne (s : State) (r r' : Reg) (v : Word) (h : r' ≠ r) :
    readReg { s with regs := storeReg s.regs r v } r' = readReg s r' := by
  cases r <;> cases r' <;>
    simp only [readReg, storeReg, hiHalf_setLoHalf, loHalf_setHiHalf] <;>
    first
    | exact absurd rfl h
    | exact bufWord_setBufWord_ne _ _ _ _ (by omega) fun hjk => h (by rw [Fin.ext hjk])

/-- A store to a register twice is the store once (20_memory.md rule R66). -/
theorem storeReg_idempotent (r : Regs) (reg : Reg) (v : Word) :
    storeReg (storeReg r reg v) reg v = storeReg r reg v := by
  have hbuf : ∀ {n : Nat} (b : Vector Byte n) (j : Nat),
      setBufWord (setBufWord b j v) j v = setBufWord b j v := by
    intro n b j
    apply Vector.ext
    intro i hi
    simp [setBufWord]
    exact fun h h' => absurd h h'
  cases reg <;> simp [storeReg, hbuf]

end Sys2Proof.Machine
end

