-- ==== Sys2Proof/Laws/Datapath.lean ====
section
/-! SUPPORT. Datapath.lean: the laws of the functions the commands compute with (41_truncate.md,
42_moving_factor.md). -/

namespace Sys2Proof.Machine

/-! ### Digest, offset and window -/

theorem toNat_append_eq {m n : Nat} (x : BitVec m) (y : BitVec n) :
    (x ++ y).toNat = x.toNat * 2 ^ n + y.toNat := by
  rw [BitVec.toNat_append, ← Nat.shiftLeft_add_eq_or_of_lt y.isLt, Nat.shiftLeft_eq]

theorem digestLen_bounds (a : Alg) : 20 ≤ digestLen a ∧ digestLen a ≤ 64 := by
  cases a <;> decide

/-- A byte of a digest within its length (41_truncate.md rule R122). -/
theorem byteAt_zeroFill (d : Vector Byte 64) (len i : Nat) (h : i < len) (h' : i < 64) :
    byteAt (zeroFill len d) i = byteAt d i := by
  rw [zeroFill, byteAt_ofFn _ _ h', byteAt_eq_get _ _ h']
  simp [h]

/-- The offset is fixed and in `0..L−5`, or dynamic and a nibble (41_truncate.md rule R130). -/
theorem selectOffset_cases (t : Int) (h : Vector Byte 64) (len : Nat) :
    (∃ n : Nat, t = n ∧ (n : Int) ≤ (len : Int) - 5 ∧ selectOffset t h len = (n, false)) ∨
    (¬ (0 ≤ t ∧ t ≤ (len : Int) - 5) ∧
      selectOffset t h len = ((byteAt h (len - 1)).toNat % 16, true)) := by
  unfold selectOffset
  split
  · rename_i ht
    exact .inl ⟨t.toNat, by omega, by omega, rfl⟩
  · rename_i ht
    exact .inr ⟨ht, by simp [BitVec.extractLsb'_toNat]⟩

/-! ### Check digit, text and result registers -/

theorem luhn_le_nine (num d : Nat) : luhn num d ≤ 9 := by
  unfold luhn
  omega

theorem toNat_decText (n len : Nat) (k : Fin 32) (h : k.val < len) :
    (decText n len)[k].toNat = 0x30 + n / 10 ^ (len - 1 - k.val) % 10 := by
  simp [decText, h]
  omega

theorem decText_beyond (n len : Nat) (k : Fin 32) (h : len ≤ k.val) :
    (decText n len)[k] = 0x00#8 := by
  simp [decText]
  omega

/-- OTP as it is stored: a code fits in 64 bits (10_state.md rule R37). -/
theorem toNat_otp_storeCode (r : Regs) (bin : BitVec 31) (off : Nat) (dyn : Bool) (otp len : Nat)
    (h : otp < 2 ^ 64) : (storeCode r bin off dyn otp len).otp.toNat = otp := by
  simp
  omega

/-! ### Hexadecimal text -/

/-- No character below `n` is other than hexadecimal (42_moving_factor.md rule R176). -/
theorem firstNonHex_eq_none {h : Vector Byte 16} {n : Nat}
    (hall : ∀ k, k < 16 → k < n → isHex (byteAt h k) = true) : firstNonHex h n = none := by
  unfold firstNonHex
  rw [List.find?_eq_none]
  intro k _
  simp only [Bool.and_eq_true, decide_eq_true_eq, not_and, Bool.not_eq_true', Fin.getElem_fin]
  intro hk
  have hx := hall k.val k.isLt hk
  rw [byteAt_eq_get _ _ k.isLt] at hx
  simp [hx]

/-- `k` is the lowest index below `n` with another character (42_moving_factor.md rule R176). -/
theorem firstNonHex_eq_some {h : Vector Byte 16} {n : Nat} (k : Fin 16) (hk : k.val < n)
    (hbad : isHex (byteAt h k.val) = false) (hlow : ∀ j, j < k.val → isHex (byteAt h j) = true) :
    firstNonHex h n = some k := by
  have hget : ∀ j : Fin 16, h[j] = byteAt h j.val := fun j => (byteAt_eq_get _ _ j.isLt).symm
  unfold firstNonHex
  rw [List.find?_eq_some_iff_getElem]
  refine ⟨by simp [hget, hk, hbad], k.val, by simp, by simp, fun j hj => ?_⟩
  have hx := hlow j hj
  have hj16 : j < 16 := by omega
  rw [byteAt_eq_get _ _ hj16] at hx
  simp [hx]

/-- One more character multiplies by 16 and adds its value (42_moving_factor.md rule R176). -/
theorem hexValue_succ (h : Vector Byte 16) (n : Nat) :
    hexValue h (n + 1) = 16 * hexValue h n + hexVal (byteAt h n) := by
  unfold hexValue
  rw [List.range_succ, List.map_append, List.sum_append, ← List.sum_map_mul_left]
  congr 1
  · congr 1
    apply List.map_congr_left
    intro k hk
    have hk := List.mem_range.1 hk
    rw [show n + 1 - 1 - k = (n - 1 - k) + 1 by omega, Nat.pow_succ]
    ring
  · simp

end Sys2Proof.Machine
end

