-- ==== Sys2Proof/Laws/Ops.lean ====
section
/-! SUPPORT. Ops.lean: for each shared operation, once, everything it can do; later proofs cite these and
do not unfold the operation. -/

namespace Sys2Proof.Machine

/-! ### Completion -/

@[simp] theorem complete_ok (c : Bool) (r : Regs) (s : State) : complete c (.ok r) s = completeOk r s := rfl

@[simp] theorem complete_error (c : Bool) (e : CmdError) (s : State) :
    complete c (.error e) s = completeError c e s := rfl

/-- A completion commits a success or reports an error (40_command.md rule R101). -/
theorem complete_cases (c : Bool) (result : Except CmdError Regs) (s : State) :
    (∃ r, result = .ok r ∧ complete c result s = completeOk r s) ∨
    (∃ e, result = .error e ∧ complete c result s = completeError c e s) := by
  cases result with
  | ok r => exact .inl ⟨r, rfl, rfl⟩
  | error e => exact .inr ⟨e, rfl, rfl⟩

/-- The sequencer's step of an engine command fails a check, waits for the answer, or completes with it
(40_command.md rules R101 and R107). -/
theorem completeWithEngine_cases (c : Bool) (request : Except CmdError EngineRequest)
    (result : EngineRequest → EngineAnswer → Except CmdError Regs) (s : State) :
    (∃ e, request = .error e ∧ completeWithEngine c request result s = completeError c e s) ∨
    (∃ q, request = .ok q ∧ s.engResp = none ∧
      completeWithEngine c request result s = { s with engReq := true }) ∨
    (∃ q a, request = .ok q ∧ s.engResp = some a ∧
      completeWithEngine c request result s = complete c (result q a) s) := by
  cases request with
  | error e => exact .inl ⟨e, rfl, rfl⟩
  | ok q =>
    refine .inr ?_
    simp only [completeWithEngine]
    cases h : s.engResp with
    | none => exact .inl ⟨q, rfl, rfl, rfl⟩
    | some a => exact .inr ⟨q, a, rfl, rfl, rfl⟩

/-! ### The checks -/

/-- ALG selects an algorithm or is 3 (10_state.md rule R29). -/
theorem checkAlg_cases (r : Regs) :
    (r.cfg.alg.toNat = 3 ∧ checkAlg r = .error .algReserved) ∨
    (r.cfg.alg.toNat = 0 ∧ checkAlg r = .ok .sha1) ∨
    (r.cfg.alg.toNat = 1 ∧ checkAlg r = .ok .sha256) ∨
    (r.cfg.alg.toNat = 2 ∧ checkAlg r = .ok .sha512) := by
  have h4 : r.cfg.alg.toNat < 4 := r.cfg.alg.isLt
  rcases (by omega : r.cfg.alg.toNat = 0 ∨ r.cfg.alg.toNat = 1 ∨ r.cfg.alg.toNat = 2 ∨
    r.cfg.alg.toNat = 3) with h | h | h | h <;> simp [checkAlg, algOf, h]

/-- DIGITS is zero, above 31, or legal (10_state.md rule R27). -/
theorem checkDigits_cases (r : Regs) :
    (r.cfg.digits.toNat = 0 ∧ checkDigits r = .error .digitsZero) ∨
    (31 < r.cfg.digits.toNat ∧ checkDigits r = .error .digitsRange) ∨
    (1 ≤ r.cfg.digits.toNat ∧ r.cfg.digits.toNat ≤ 31 ∧
      checkDigits r = .ok r.cfg.digits.toNat) := by
  unfold checkDigits maxDigits
  split
  · exact .inl ⟨‹_›, rfl⟩
  · split
    · exact .inr (.inl ⟨by omega, rfl⟩)
    · exact .inr (.inr ⟨by omega, by omega, rfl⟩)

/-- TIME is negative, or the milliseconds it holds (10_state.md rule R32). -/
theorem checkTime_cases (r : Regs) :
    (r.time.toInt < 0 ∧ checkTime r = .error .timeNegative) ∨
    (∃ t : Nat, r.time.toInt = t ∧ t < 2 ^ 63 ∧ checkTime r = .ok t) := by
  unfold checkTime
  split
  · exact .inl ⟨‹_›, rfl⟩
  · refine .inr ⟨r.time.toInt.toNat, by omega, ?_, rfl⟩
    have := r.time.isLt
    rw [BitVec.toInt_eq_toNat_cond] at *
    split at * <;> omega

/-- A success of ALG and DIGITS together (60_exceptions.md rule R202). -/
theorem checkAlgDigits_ok {r : Regs} {a : Alg} {d : Nat} (h : checkAlgDigits r = .ok (a, d)) :
    checkAlg r = .ok a ∧ checkDigits r = .ok d ∧ d = r.cfg.digits.toNat ∧ 1 ≤ d ∧ d ≤ 31 := by
  unfold checkAlgDigits at h
  rcases checkAlg_cases r with ⟨-, ha⟩ | ⟨-, ha⟩ | ⟨-, ha⟩ | ⟨-, ha⟩ <;>
    rcases checkDigits_cases r with ⟨-, hd⟩ | ⟨-, hd⟩ | ⟨h1, h2, hd⟩ <;>
    simp_all

/-! ### Host accesses -/

/-- Everything a host access can do, outside reset: an access error, a read, a reset by SRST, a store of
IE, a clearing of STATUS bits, a dropped write, an acceptance, a store (20_memory.md rules R63 and R64,
40_command.md rules R100 and R103). -/
theorem hostAccess_cases (a : Access) (s : State) (h : s.resetIn = false) :
    (hostAccess a s = accessError s) ∨
    (hostAccess a s = { accessError s with readData := 0x00000000#32 }) ∨
    (∃ r, hostAccess a s = { s with readData := readReg s r }) ∨
    (∃ v : Word, a = .write .w32 (BitVec.ofNat 8 (regOffset .ctrl)) v ∧ v.getLsbD 1 = true ∧
      hostAccess a s = resetBlock s) ∨
    (∃ v : Word, a = .write .w32 (BitVec.ofNat 8 (regOffset .ctrl)) v ∧ v.getLsbD 1 = false ∧
      hostAccess a s = { s with ie := v.getLsbD 0 }) ∨
    (∃ v : Word, a = .write .w32 (BitVec.ofNat 8 (regOffset .status)) v ∧
      hostAccess a s = writeStatus v s) ∨
    (∃ w, s.seq = .running w ∧ hostAccess a s = dropWrite s) ∨
    (∃ v : Word, a = .write .w32 (BitVec.ofNat 8 (regOffset .cmd)) v ∧ s.seq = .idle ∧
      hostAccess a s = accept v s) ∨
    (∃ (r : Reg) (v : Word), a = .write .w32 (BitVec.ofNat 8 (regOffset r)) v ∧ s.seq = .idle ∧
      readOnly r = false ∧ r ≠ .ctrl ∧ r ≠ .status ∧ r ≠ .cmd ∧
      hostAccess a s = { s with regs := storeReg s.regs r v }) := by
  cases a with
  | read w off =>
    simp only [hostAccess, hostRead, h]
    cases hr : addressed w off with
    | none => exact .inr (.inl rfl)
    | some r => exact .inr (.inr (.inl ⟨r, rfl⟩))
  | write w off v =>
    simp only [hostAccess, hostWrite, h]
    cases hr : addressed w off with
    | none => exact .inl rfl
    | some r =>
      obtain ⟨rfl, rfl⟩ := addressed_eq_some hr
      cases hro : readOnly r with
      | true => exact .inl (by simp [hro])
      | false =>
        by_cases hc : r = .ctrl
        · subst hc
          cases hv : v.getLsbD 1 with
          | true =>
            have hb : v[1] = true := by simpa using hv
            exact .inr (.inr (.inr (.inl ⟨v, rfl, hv, by simp [hro, writeReg, writeCtrl, hb]⟩)))
          | false =>
            have hb : v[1] = false := by simpa using hv
            exact .inr (.inr (.inr (.inr (.inl ⟨v, rfl, hv, by simp [hro, writeReg, writeCtrl, hb, h]⟩))))
        · by_cases hs : r = .status
          · subst hs
            exact .inr (.inr (.inr (.inr (.inr (.inl ⟨v, rfl, by simp [hro, writeReg]⟩)))))
          · cases hq : s.seq with
            | running w =>
              exact .inr (.inr (.inr (.inr (.inr (.inr (.inl
                ⟨w, rfl, by simp [hro, writeReg, hc, hs, writeWhenIdle, hq]⟩))))))
            | idle =>
              by_cases hm : r = .cmd
              · subst hm
                exact .inr (.inr (.inr (.inr (.inr (.inr (.inr (.inl
                  ⟨v, rfl, rfl, by simp [hro, writeReg, writeWhenIdle, hq]⟩)))))))
              · exact .inr (.inr (.inr (.inr (.inr (.inr (.inr (.inr
                  ⟨r, v, rfl, rfl, hro, hc, hs, hm, by simp [hro, writeReg, hc, hs, writeWhenIdle, hq, hm, h]⟩)))))))

/-- Under reset an access changes at most what the latest read returned (70_reset_and_hazards.md rule
R240). -/
theorem hostAccess_in_reset (a : Access) (s : State) (h : s.resetIn = true) :
    hostAccess a s = s ∨ hostAccess a s = { s with readData := 0x00000000#32 } := by
  cases a with
  | read w off => exact .inr (by simp [hostAccess, hostRead, h])
  | write w off v => exact .inl (by simp [hostAccess, hostWrite, h])

/-! ### The engine -/

/-- An answer is stored for the outstanding request, or discarded (41_truncate.md rule R121). -/
theorem engineAnswers_cases (s : State) :
    engineAnswers s = s ∨
    (∃ q, s.engReq = true ∧ s.engResp = none ∧ runningRequest s = some q ∧
      engineAnswers s = { s with engResp := some (engineOf q) }) := by
  unfold engineAnswers awaitingAnswer
  cases hq : runningRequest s with
  | none => exact .inl (by simp)
  | some q =>
    cases hr : s.engReq with
    | false => exact .inl (by simp)
    | true =>
      cases ha : s.engResp with
      | some a => exact .inl (by simp)
      | none => exact .inr ⟨q, rfl, rfl, rfl, by simp⟩

end Sys2Proof.Machine
end

