-- ==== Sys2Proof/Laws/PerInstr.lean ====
section
/-! SUPPORT. PerInstr.lean: what holds of every command as syntax, one lemma per command. -/

/-- A command's word has the one format, with the command's own OP (30_encoding.md rules R80 and R82). -/
def Sys2Proof.Laws.EncodedWord.Statement (i : Sys2Proof.Instr) : Prop :=
  i.wellFormed = true ∧ Sys2Proof.reservedBitsClear (Sys2Proof.encode i) = true ∧
    Sys2Proof.opcodeDefined (Sys2Proof.encode i) = true ∧
    Sys2Proof.opcodeCommand (Sys2Proof.opcode i).toNat = some i

namespace Sys2Proof.Laws.EncodedWord

theorem nop : Statement .nop := by unfold Statement; decide

theorem mfenc : Statement .mfenc := by unfold Statement; decide

theorem hmac : Statement .hmac := by unfold Statement; decide

theorem trunc : Statement .trunc := by unfold Statement; decide

theorem luhn : Statement .luhn := by unfold Statement; decide

theorem hotp : Statement .hotp := by unfold Statement; decide

theorem tstep : Statement .tstep := by unfold Statement; decide

theorem hexenc : Statement .hexenc := by unfold Statement; decide

theorem hexdec : Statement .hexdec := by unfold Statement; decide

theorem totp : Statement .totp := by unfold Statement; decide

end Sys2Proof.Laws.EncodedWord
end

