-- ==== Sys2Proof/Laws/Step.lean ====
section
/-! SUPPORT. Step.lean: everything a command's meaning and a move of an agent can do. -/

namespace Sys2Proof.Machine

/-- The commands whose failure clears CODE (40_command.md rule R104). -/
def clearsCode : Instr → Bool
  | .nop => false
  | .mfenc => false
  | .hmac => false
  | .trunc => true
  | .luhn => false
  | .hotp => true
  | .tstep => false
  | .hexenc => false
  | .hexdec => false
  | .totp => true

/-- The registers a success of the command leaves, for the answer the engine gave if it was asked. -/
def SuccessRegs (i : Instr) (s : State) (r : Regs) : Prop :=
  match i with
  | .nop => r = s.regs
  | .mfenc => r = mfencRegs s.regs
  | .hmac => ∃ q a, hmacRequest s.regs = .ok q ∧ s.engResp = some a ∧ hmacResult s.regs q a = .ok r
  | .trunc => truncResult s.regs = .ok r
  | .luhn => luhnResult s.regs = .ok r
  | .hotp => ∃ q a, hotpRequest s.regs = .ok q ∧ s.engResp = some a ∧ hotpResult s.regs q a = .ok r
  | .tstep => tstepResult s.regs = .ok r
  | .hexenc => r = hexencRegs s.regs
  | .hexdec => hexdecResult s.regs = .ok r
  | .totp => ∃ q a, totpRequest s.regs = .ok q ∧ s.engResp = some a ∧ totpResult s.regs q a = .ok r

/-- What a command that asks the engine can do. -/
theorem completeWithEngine_inversion (c : Bool) (request : Except CmdError EngineRequest)
    (result : EngineRequest → EngineAnswer → Except CmdError Regs) (s : State) :
    (∃ r q a, request = .ok q ∧ s.engResp = some a ∧ result q a = .ok r ∧
      completeWithEngine c request result s = completeOk r s) ∨
    (∃ e, completeWithEngine c request result s = completeError c e s) ∨
    (∃ q, request = .ok q ∧ s.engResp = none ∧
      completeWithEngine c request result s = { s with engReq := true }) := by
  rcases completeWithEngine_cases c request result s with ⟨e, -, h⟩ | ⟨q, hq, hn, h⟩ | ⟨q, a, hq, ha, h⟩
  · exact .inr (.inl ⟨e, h⟩)
  · exact .inr (.inr ⟨q, hq, hn, h⟩)
  · rcases complete_cases c (result q a) s with ⟨r, hr, hc⟩ | ⟨e, -, hc⟩
    · exact .inl ⟨r, q, a, hq, ha, hr, h.trans hc⟩
    · exact .inr (.inl ⟨e, h.trans hc⟩)

/-- What a command that asks nobody can do. -/
theorem complete_inversion (c : Bool) (result : Except CmdError Regs) (s : State) :
    (∃ r, result = .ok r ∧ complete c result s = completeOk r s) ∨
    (∃ e, complete c result s = completeError c e s) := by
  rcases complete_cases c result s with h | ⟨e, -, h⟩
  · exact .inl h
  · exact .inr ⟨e, h⟩

/-- A command's meaning answers a next state that is a success with the registers of its rule, an error
completion, or the wait for the engine (40_command.md rules R101 to R105). -/
theorem exec_cases (i : Instr) (s : State) : ∃ t, exec i s = .next t ∧
    ((∃ r, SuccessRegs i s r ∧ t = completeOk r s) ∨
      (∃ e, t = completeError (clearsCode i) e s) ∨
      (∃ q, requestOf i s.regs = some q ∧ s.engResp = none ∧ t = { s with engReq := true })) := by
  cases i with
  | nop => exact ⟨_, rfl, .inl ⟨_, rfl, rfl⟩⟩
  | mfenc => exact ⟨_, rfl, .inl ⟨_, rfl, rfl⟩⟩
  | hexenc => exact ⟨_, rfl, .inl ⟨_, rfl, rfl⟩⟩
  | trunc =>
    refine ⟨_, rfl, ?_⟩
    rcases complete_inversion true (truncResult s.regs) s with ⟨r, hr, h⟩ | h
    · exact .inl ⟨r, hr, h⟩
    · exact .inr (.inl h)
  | luhn =>
    refine ⟨_, rfl, ?_⟩
    rcases complete_inversion false (luhnResult s.regs) s with ⟨r, hr, h⟩ | h
    · exact .inl ⟨r, hr, h⟩
    · exact .inr (.inl h)
  | tstep =>
    refine ⟨_, rfl, ?_⟩
    rcases complete_inversion false (tstepResult s.regs) s with ⟨r, hr, h⟩ | h
    · exact .inl ⟨r, hr, h⟩
    · exact .inr (.inl h)
  | hexdec =>
    refine ⟨_, rfl, ?_⟩
    rcases complete_inversion false (hexdecResult s.regs) s with ⟨r, hr, h⟩ | h
    · exact .inl ⟨r, hr, h⟩
    · exact .inr (.inl h)
  | hmac =>
    refine ⟨_, rfl, ?_⟩
    rcases completeWithEngine_inversion false (hmacRequest s.regs) (hmacResult s.regs) s with
      ⟨r, q, a, hq, ha, hr, h⟩ | h | ⟨q, hq, hn, h⟩
    · exact .inl ⟨r, ⟨q, a, hq, ha, hr⟩, h⟩
    · exact .inr (.inl h)
    · exact .inr (.inr ⟨q, by simp [requestOf, hq, Except.toOption], hn, h⟩)
  | hotp =>
    refine ⟨_, rfl, ?_⟩
    rcases completeWithEngine_inversion true (hotpRequest s.regs) (hotpResult s.regs) s with
      ⟨r, q, a, hq, ha, hr, h⟩ | h | ⟨q, hq, hn, h⟩
    · exact .inl ⟨r, ⟨q, a, hq, ha, hr⟩, h⟩
    · exact .inr (.inl h)
    · exact .inr (.inr ⟨q, by simp [requestOf, hq, Except.toOption], hn, h⟩)
  | totp =>
    refine ⟨_, rfl, ?_⟩
    rcases completeWithEngine_inversion true (totpRequest s.regs) (totpResult s.regs) s with
      ⟨r, q, a, hq, ha, hr, h⟩ | h | ⟨q, hq, hn, h⟩
    · exact .inl ⟨r, ⟨q, a, hq, ha, hr⟩, h⟩
    · exact .inr (.inl h)
    · exact .inr (.inr ⟨q, by simp [requestOf, hq, Except.toOption], hn, h⟩)

/-- The sequencer's move: none, or the meaning of the running command, or the illegal word's error
(40_command.md rule R101, 30_encoding.md rule R83). -/
theorem sequencerStep_cases (s : State) :
    ((s.resetIn = true ∨ s.seq = .idle) ∧ sequencerStep s = .next s) ∨
    (∃ w i, s.resetIn = false ∧ s.seq = .running w ∧ decode w = .ok i ∧ sequencerStep s = exec i s) ∨
    (∃ w why, s.resetIn = false ∧ s.seq = .running w ∧ decode w = .error why ∧
      sequencerStep s = .next (completeError false (.illegal why) s)) := by
  unfold sequencerStep
  cases hr : s.resetIn with
  | true => exact .inl ⟨.inl rfl, rfl⟩
  | false =>
    cases hs : s.seq with
    | idle => exact .inl ⟨.inr rfl, rfl⟩
    | running w =>
      cases hd : decode w with
      | ok i => exact .inr (.inl ⟨w, i, rfl, rfl, hd, by simp [hd]⟩)
      | error why => exact .inr (.inr ⟨w, why, rfl, rfl, hd, by simp [hd, execIllegal]⟩)

/-- The agents' own move: the engine's answer when it is awaited, else the sequencer's move
(40_command.md rule R102). -/
theorem agentStep_cases (s : State) :
    (s.resetIn = false ∧ awaitingAnswer s = true ∧ agentStep s = .next (engineAnswers s)) ∨
    agentStep s = sequencerStep s := by
  unfold agentStep
  cases hr : s.resetIn <;> cases ha : awaitingAnswer s <;> simp

/-- A running command whose request is outstanding is the one that made it. -/
theorem runningRequest_running {s : State} {w : Word} {i : Instr} (hs : s.seq = .running w)
    (hd : decode w = .ok i) : runningRequest s = requestOf i s.regs := by
  simp [runningRequest, hs, hd]

/-- `WAIT` changes at most what the latest read returned and the moves to come (30_encoding.md rule R86). -/
theorem waitStep_eq (s : State) : ∃ d l, waitStep s = { s with readData := d, schedule := l } := by
  have hb : ∃ d, hostRead .w32 0x0C#8 s = { s with readData := d } := by
    unfold hostRead
    split
    · exact ⟨_, rfl⟩
    · rw [show addressed .w32 0x0C#8 = some .status from addressed_regOffset .status]
      exact ⟨_, rfl⟩
  obtain ⟨d, hd⟩ := hb
  simp only [waitStep, hd]
  split
  · exact ⟨_, _, rfl⟩
  · exact ⟨_, _, rfl⟩

/-- Everything a step can do, with the move taken off the schedule: nothing, the sequencer's move, an
answer of the engine, a host access, a `WAIT`, or a change of the reset input (00_scope.md rule R4). The
sequencer moves only by its own event, by `agent`, or with nothing scheduled. -/
theorem step_cases (s t : State) (h : step s = .next t) :
    ∃ es, ((s.schedule = [] ∧ es = []) ∨ ∃ e, s.schedule = e :: es) ∧
      (t = { s with schedule := es } ∨
        ((s.schedule = [] ∨ s.schedule = .sequencer :: es ∨ s.schedule = .agent :: es) ∧
          sequencerStep { s with schedule := es } = .next t) ∨
        (s.resetIn = false ∧ t = engineAnswers { s with schedule := es }) ∨
        (∃ a, s.schedule = .host a :: es ∧ t = hostAccess a { s with schedule := es }) ∨
        (∃ d l, s.schedule = .wait :: es ∧ t = { s with readData := d, schedule := l }) ∨
        (s.schedule = .assertReset :: es ∧ t = assertReset { s with schedule := es }) ∨
        (s.schedule = .releaseReset :: es ∧ s.resetIn = true ∧
          t = { resetBlock s with resetIn := false, schedule := es })) := by
  have agent : ∀ u : State, agentStep u = .next t →
      sequencerStep u = .next t ∨ (u.resetIn = false ∧ t = engineAnswers u) := by
    intro u hu
    rcases agentStep_cases u with ⟨hr, -, ha⟩ | ha
    · rw [ha] at hu
      cases hu
      exact .inr ⟨hr, rfl⟩
    · exact .inl (ha ▸ hu)
  unfold step at h
  split at h
  · rename_i hs
    refine ⟨[], .inl ⟨hs, rfl⟩, ?_⟩
    have hself : ({ s with schedule := [] } : State) = s := by rw [← hs]
    rw [hself]
    rcases agent s h with h | h
    · exact .inr (.inl ⟨.inl hs, h⟩)
    · exact .inr (.inr (.inl h))
  · rename_i e es he
    refine ⟨es, .inr ⟨e, he⟩, ?_⟩
    cases e with
    | host a =>
      cases h
      exact .inr (.inr (.inr (.inl ⟨a, he, rfl⟩)))
    | sequencer => exact .inr (.inl ⟨.inr (.inl he), h⟩)
    | engine =>
      cases h
      unfold engineStep
      split
      · exact .inl rfl
      · exact .inr (.inr (.inl ⟨by simp_all, rfl⟩))
    | lateAnswer =>
      cases h
      exact .inl rfl
    | agent =>
      rcases agent _ h with h | h
      · exact .inr (.inl ⟨.inr (.inr he), h⟩)
      · exact .inr (.inr (.inl h))
    | wait =>
      cases h
      obtain ⟨d, l, hw⟩ := waitStep_eq { s with schedule := es }
      exact .inr (.inr (.inr (.inr (.inl ⟨d, l, he, hw⟩))))
    | assertReset =>
      cases h
      exact .inr (.inr (.inr (.inr (.inr (.inl ⟨he, rfl⟩)))))
    | releaseReset =>
      cases h
      unfold releaseReset
      split
      · exact .inr (.inr (.inr (.inr (.inr (.inr ⟨he, by simp_all, rfl⟩)))))
      · exact .inl rfl

end Sys2Proof.Machine
end

