-- ==== Sys2Proof/Tests/Slice0.lean ====
section
/-! SUPPORT. Slice0.lean: tests of the model against the worked examples of the spec (the id of
95_test_vectors.md stands in each docstring), and for every statement with hypotheses a concrete state
that meets them. -/

namespace Sys2Proof.Tests

open Sys2Proof.Machine Sys2Proof.Spec

/-! ### Helpers -/

/-- A buffer holding the given bytes, 0x00 beyond. -/
def bytes (n : Nat) (l : List Nat) : Vector Byte n := Vector.ofFn fun i => BitVec.ofNat 8 (l.getD i.val 0)

/-- The reset state after plain register writes. -/
def written (l : List (Reg × Word)) : State :=
  { State.reset with regs := l.foldl (fun r x => storeReg r x.1 x.2) Regs.reset }

/-- The registers a command leaves, read by the host. -/
def readAfter (i : Instr) (s : State) (rs : List Reg) : List Word :=
  match exec i s with
  | .next t => rs.map (readReg t)
  | .fault _ => []
  | .refused _ => []

/-- The state with an answer of the engine arrived. -/
def answered (a : EngineAnswer) (s : State) : State := { s with engReq := true, engResp := some a }

/-- D_RFC of section 2.4, and the digests of vectors HO-1 and TO-1 (section 2.6). -/
def digestRfc : List Nat :=
  [0x1f, 0x86, 0x98, 0x69, 0x0e, 0x02, 0xca, 0x16, 0x61, 0x85, 0x50, 0xef, 0x7f, 0x19, 0xda, 0x8e, 0x94, 0x5b,
    0x55, 0x5a]

def digestOne : List Nat :=
  [0x75, 0xa4, 0x8a, 0x19, 0xd4, 0xcb, 0xe1, 0x00, 0x64, 0x4e, 0x8a, 0xc1, 0x39, 0x7e, 0xea, 0x74, 0x7a, 0x2d,
    0x33, 0xab]

/-- A state with a digest in DIGEST. -/
def withDigest (l : List Nat) (s : State) : State := { s with regs := { s.regs with digest := bytes 64 l } }

/-- An idle block after a command that failed: DONE, ERR, ERRCODE = 1. -/
def failedState (ie : Bool) : State :=
  { State.reset with ie := ie, status := { Status.reset with done := true, err := true, errCode := 1#4 } }

/-! ### Well-formedness -/

theorem smoke_reserved_bits_refused : reservedBitsClear 0x00000103#32 = false := by decide

theorem smoke_opcode_refused : opcodeDefined 0x0000000A#32 = false := by decide

/-- Log entry 21, the model's choice; so the next one. -/
theorem smoke_wrbuf_partial_word_refused : HostLine.wellFormed (.wrbuf .digest [1, 2, 3]) = false := by decide

theorem smoke_wrbuf_too_long_refused :
    HostLine.wellFormed (.wrbuf .msg (List.replicate 12 0)) = false := by decide

theorem smoke_wrbuf_whole_buffer_accepted :
    HostLine.wellFormed (.wrbuf .msg (List.replicate 8 0)) = true := by decide

/-! ### Decoding: the words of 30_encoding.md rule R82, bit by bit -/

theorem test_decode_nop : decode 0b00000000000000000000000000000000#32 = .ok .nop := by decide

theorem test_decode_mfenc : decode 0b00000000000000000000000000000001#32 = .ok .mfenc := by decide

theorem test_decode_hmac : decode 0b00000000000000000000000000000010#32 = .ok .hmac := by decide

theorem test_decode_trunc : decode 0b00000000000000000000000000000011#32 = .ok .trunc := by decide

theorem test_decode_luhn : decode 0b00000000000000000000000000000100#32 = .ok .luhn := by decide

theorem test_decode_hotp : decode 0b00000000000000000000000000000101#32 = .ok .hotp := by decide

theorem test_decode_tstep : decode 0b00000000000000000000000000000110#32 = .ok .tstep := by decide

theorem test_decode_hexenc : decode 0b00000000000000000000000000000111#32 = .ok .hexenc := by decide

theorem test_decode_hexdec : decode 0b00000000000000000000000000001000#32 = .ok .hexdec := by decide

theorem test_decode_totp : decode 0b00000000000000000000000000001001#32 = .ok .totp := by decide

/-- EX-1, EX-3 and EX-4. -/
theorem test_decode_illegal : decode 0x0000000A#32 = .error .opcodeReserved ∧
    decode 0x00000103#32 = .error .reservedBits ∧ decode 0xFFFFFFFF#32 = .error .reservedBits := by decide

theorem test_table_word : decodeTableWord 32 0x00000009 = some .totp ∧ decodeTableWord 32 0x00000109 = none := by
  decide

/-! ### The commands -/

/-- The example of rule R106: STATUS = 0x16 before, 0x2 after. -/
theorem test_nop_clears_error :
    readAfter .nop (accept (encode .nop) (failedState false)) [.status, .cmd] = [0x00000002#32, 0x00000000#32] := by decide

/-- MF-3. -/
theorem test_mfenc_big_endian :
    readAfter .mfenc (accept (encode .mfenc) (written [(.ctrHi, 0x01020304#32), (.ctrLo, 0x05060708#32)]))
      [.msg 0, .msg 1, .status] = [0x01020304#32, 0x05060708#32, 0x00000002#32] := by decide

/-- HM-4: the bytes above L are zeroed. -/
theorem test_hmac_zero_fill :
    readAfter .hmac (answered (.digest (bytes 64 (digestOne ++ List.replicate 44 0xFF)))
      (withDigest (List.replicate 64 0xFF) State.reset)) [.digest 0, .digest 4, .digest 5, .digest 15] =
      [0x75A48A19#32, 0x7A2D33AB#32, 0x00000000#32, 0x00000000#32] := by decide

/-- HM-6. -/
theorem test_hmac_unavailable :
    readAfter .hmac (answered .cryptoUnavailable (withDigest digestRfc State.reset))
      [.status, .errinfo, .digest 0] = [0x00000026#32, 0x0000000A#32, 0x1F869869#32] := by decide

/-- TR-2. -/
theorem test_trunc_check_digit :
    readAfter .trunc (withDigest digestRfc (written [(.cfg, 0x00000106#32)]))
      [.offused, .truncv, .otpLo, .lres, .codelen, .code 0, .code 1] =
      [0x0000010A#32, 0x50EF7F19#32, 0x0085327C#32, 0x00000002#32, 0x00000007#32, 0x38373239#32,
        0x32313200#32] := by decide

/-- TR-27: the last fixed offset of SHA-512, with the mask 0x7F. -/
theorem test_trunc_fixed_offset :
    readAfter .trunc (withDigest ((List.range 64).map (0x80 + ·)) (written [(.cfg, 0x00002006#32), (.toff, 59#32)]))
      [.offused, .truncv, .otpLo, .codelen] = [0x0000003B#32, 0x3BBCBDBE#32, 225086#32, 0x00000006#32] := by
  decide

/-- LU-2. -/
theorem test_luhn_source_example :
    readAfter .luhn (written [(.lnumLo, 10000#32)]) [.lres, .status] = [0x00000008#32, 0x00000002#32] := by decide

/-- LU-13. -/
theorem test_luhn_all_ones :
    readAfter .luhn (written [(.lnumLo, 0xFFFFFFFF#32), (.lnumHi, 0xFFFFFFFF#32), (.cfg, 20#32)]) [.lres] =
      [0x00000003#32] := by decide

/-- HO-10, from LRES = 0: HOTP ignores CHK and TOFF. -/
theorem test_hotp_rfc_counter_one :
    readAfter .hotp (answered (.digest (bytes 64 digestOne))
      (written [(.ctrLo, 1#32), (.cfg, 0x00000106#32), (.toff, 0#32)]))
      [.offused, .truncv, .code 0, .code 1, .codelen, .msg 1, .lres, .ctrLo] =
      [0x0000010B#32, 0x41397EEA#32, 0x32383730#32, 0x38320000#32, 0x00000006#32, 0x00000001#32,
        0x00000000#32, 0x00000001#32] := by decide

/-- HO-15. -/
theorem test_hotp_bad_key :
    readAfter .hotp (answered .invalidKey (written [(.ctrLo, 1#32)])) [.status, .errinfo, .msg 1] =
      [0x00000036#32, 0x0000000B#32, 0x00000000#32] := by decide

/-- TS-9. -/
theorem test_tstep_at_boundary :
    readAfter .tstep (written [(.timeHi, 0x0000016E#32), (.timeLo, 0x6D147C9C#32)]) [.ctrLo, .ctrHi] =
      [52459603#32, 0x00000000#32] := by decide

/-- TS-6 with PERIOD = 0 acting as 1 (TS-7): the tie 2.5 s rounds up. -/
theorem test_tstep_tie_and_zero_period :
    readAfter .tstep (written [(.timeLo, 2500#32), (.period, 0#32)]) [.ctrLo] = [3#32] := by decide

/-- HE-3. -/
theorem test_hexenc_lower_case :
    readAfter .hexenc (written [(.ctrHi, 0x01234567#32), (.ctrLo, 0x89ABCDEF#32)])
      [.hex 0, .hex 1, .hex 2, .hex 3, .hexlen] =
      [0x30313233#32, 0x34353637#32, 0x38396162#32, 0x63646566#32, 0x00000010#32] := by decide

/-- HD-3. -/
theorem test_hexdec_mixed_case :
    readAfter .hexdec (written [(.hexlen, 3#32), (.hex 0, 0x61314600#32)]) [.ctrLo, .status] =
      [0x00000A1F#32, 0x00000002#32] := by decide

/-- HD-10. -/
theorem test_hexdec_bad_character :
    readAfter .hexdec (written [(.hexlen, 3#32), (.hex 0, 0x61316700#32), (.ctrLo, 5#32)])
      [.status, .errinfo, .ctrLo] = [0x00000016#32, 0x00000207#32, 0x00000005#32] := by decide

/-- TO-1 with SHA-1. -/
theorem test_totp_rfc_time_59 :
    readAfter .totp (answered (.digest (bytes 64 digestOne)) (written [(.timeLo, 59000#32), (.cfg, 8#32)]))
      [.ctrLo, .msg 1, .offused, .truncv, .code 0, .code 1] =
      [0x00000001#32, 0x00000001#32, 0x0000010B#32, 0x41397EEA#32, 0x39343238#32, 0x37303832#32] := by decide

/-- TO-10: TOTP commits CTR only on success. -/
theorem test_totp_unavailable_keeps_counter :
    readAfter .totp (answered .cryptoUnavailable (written [(.timeLo, 59000#32), (.ctrLo, 5#32)]))
      [.status, .errinfo, .ctrLo] = [0x00000026#32, 0x0000000A#32, 0x00000005#32] := by decide

/-! ### The protocol -/

/-- EX-12 and EX-13. -/
theorem test_reserved_bits_dropped :
    readReg (hostAccess (wr .cfg 0xFFFFFFFF#32) State.reset) .cfg = 0x0000313F#32 ∧
    readReg (hostAccess (wr .hexlen 0xFFFFFFFF#32) State.reset) .hexlen = 0x0000001F#32 := by decide

/-- EX-16: a write while HOTP is busy is dropped. -/
theorem test_write_while_busy_dropped :
    readReg (hostAccess (wr .cfg 8#32) (accept (encode .hotp) State.reset)) .cfg = 0x00000006#32 ∧
    readReg (hostAccess (wr .cfg 8#32) (accept (encode .hotp) State.reset)) .status = 0x00000201#32 := by decide

/-- EX-8: an 8-bit read of STATUS. -/
theorem test_narrow_read_is_access_error :
    readReg (hostAccess (.read .w8 0x0C#8) State.reset) .status = 0x00000100#32 := by decide

/-! ### States that meet the hypotheses of the statements -/

/-- A command just accepted after the given register writes. -/
def busyWith (i : Instr) (l : List (Reg × Word)) : State := accept (encode i) (written l)

/-- A state with the given moves to come. -/
def plan (es : List Event) (s : State) : State := { s with schedule := es }

/-- A state with a code of six characters. -/
def withCode (s : State) : State := { s with regs := { s.regs with codeLen := 6#6 } }

/-- ACCERR and BUSYERR both set. -/
def stickyState : State := { State.reset with status := { Status.reset with accErr := true, busyErr := true } }

theorem witness_DecodeTotalOnAllWords :
    ((0x00000009#32).extractLsb' 8 24 = 0#24 ∧ ((0x00000009#32).extractLsb' 0 8).toNat ≤ 9) ∧
    (0x00000100#32).extractLsb' 8 24 ≠ 0#24 ∧
    ((0x0000000A#32).extractLsb' 8 24 = 0#24 ∧ 9 < ((0x0000000A#32).extractLsb' 0 8).toNat) ∧
    ((0x000000FF#32).extractLsb' 8 24 = 0#24 ∧ 9 < ((0x000000FF#32).extractLsb' 0 8).toNat) := by decide

theorem witness_SequencerRunsDecodedCommand :
    (plan [.sequencer] (busyWith .totp [])).resetIn = false ∧
    (plan [.sequencer] (busyWith .totp [])).seq = .running 0x00000009#32 ∧
    decode 0x00000009#32 = .ok .totp ∧ (plan [.sequencer] (busyWith .totp [])).schedule = [.sequencer] ∧
    (busyWith .totp []).schedule = [] ∧ awaitingAnswer (busyWith .totp []) = false := by decide

theorem witness_HostAccessesInPortOrder :
    (plan [.host (wr .toff 5#32), .host (rd .toff)] State.reset).schedule =
      .host (wr .toff 5#32) :: .host (rd .toff) :: [] ∧
    State.reset.resetIn = false ∧ State.reset.seq = .idle ∧ hostStores .toff :=
  ⟨rfl, rfl, rfl, .inr (.inl rfl)⟩

theorem witness_IllegalWordCompletesWithError :
    (plan [.host (wr .cmd 0x00000100#32), .sequencer] State.reset).resetIn = false ∧
    (plan [.host (wr .cmd 0x00000100#32), .sequencer] State.reset).seq = .idle ∧
    (plan [.host (wr .cmd 0x00000100#32), .sequencer] State.reset).schedule =
      .host (wr .cmd 0x00000100#32) :: .sequencer :: [] ∧
    (0x00000100#32).extractLsb' 8 24 ≠ 0#24 ∧
    ((0x0000000A#32).extractLsb' 8 24 = 0#24 ∧ 0x0A ≤ ((0x0000000A#32).extractLsb' 0 8).toNat) ∧
    ((0x000000FF#32).extractLsb' 8 24 = 0#24 ∧ 0x0A ≤ ((0x000000FF#32).extractLsb' 0 8).toNat) := by decide

theorem witness_AcceptanceOfCommandWord :
    State.reset.resetIn = false ∧ State.reset.seq = .idle ∧ (busyWith .hotp []).resetIn = false ∧
    (busyWith .hotp []).seq = .running 0x00000005#32 := by decide

theorem witness_WritesWhileBusy :
    (busyWith .hotp []).resetIn = false ∧ (busyWith .hotp []).seq = .running 0x00000005#32 ∧
    readOnly .cmd = false ∧ Reg.cmd ≠ .ctrl ∧ Reg.cmd ≠ .status ∧ readOnly (.digest 15) = false ∧
    (0x00000001#32).getLsbD 1 = false ∧ (0x00000002#32).getLsbD 1 = true ∧
    IsAccessError (.write .w32 0x9C#8 0#32) := by
  simp only [IsAccessError]
  decide

/-- The ends of every range of the access errors. -/
theorem witness_AccessErrorsSetOnlyAccErr :
    State.reset.resetIn = false ∧ IsAccessError (.read .w8 0x0C#8) ∧ IsAccessError (.read .w16 0x00#8) ∧
    (∀ off ∈ [0x01#8, 0x70#8, 0x7C#8, 0xA0#8, 0xBC#8], IsAccessError (.read .w32 off)) ∧
    IsAccessError (.write .w8 0x18#8 0#32) ∧
    (∀ off ∈ [0x0D#8, 0x70#8, 0x7C#8, 0xA0#8, 0xBC#8, 0x00#8, 0x04#8, 0x14#8, 0x48#8, 0x5C#8, 0x80#8, 0x9C#8],
      IsAccessError (.write .w32 off 0#32)) ∧
    (hostAccess (wr .status 0#32) stickyState).status.accErr = true := by
  simp only [IsAccessError]
  refine ⟨?_, ?_, ?_, ?_, ?_, ?_, ?_⟩ <;> decide

theorem witness_LegalAccessesReadAndStore :
    State.reset.resetIn = false ∧ State.reset.seq = .idle ∧ hostStores .cfg ∧ hostStores .ctrHi ∧
    hostStores (.msg 1) ∧ hostStores (.digest 15) ∧ hostStores .hexlen ∧ hostStores (.hex 3) := by
  refine ⟨rfl, rfl, ?_⟩
  simp [hostStores, isCtr, isMsg, isDigest, isHexText]

theorem witness_IdentificationIsHardWired : (busyWith .hotp []).resetIn = false := by decide

theorem witness_ControlRegister : (busyWith .hotp []).resetIn = false ∧ (0x00000001#32).getLsbD 1 = false ∧
    (0x00000003#32).getLsbD 1 = true := by decide

theorem witness_StatusRegister : (busyWith .hotp []).resetIn = false ∧ Width.w16 ≠ .w32 ∧
    (0x0C#8).toNat / 4 = 3 ∧ (0x0F#8).toNat / 4 = 3 := by decide

theorem witness_AccessesTouchOnlyTheirRegister :
    (busyWith .hotp []).resetIn = false ∧ readOnly .ctrl = false ∧ Reg.ctrl ≠ .cmd ∧
    (0xFFFFFFFD#32).getLsbD 1 = false ∧ readOnly .cfg = false ∧ Reg.cfg ≠ .cmd ∧ Reg.cfg ≠ .ctrl := by decide

theorem witness_SoftResetRestoresResetState :
    (busyWith .hotp [(.ctrLo, 7#32)]).resetIn = false ∧ (0x00000003#32).getLsbD 1 = true := by decide

theorem witness_HardwareResetHoldsAndReleases : (assertReset (busyWith .hotp [])).resetIn = true := by decide

theorem witness_ResetStateIsLegalConfiguration : Instr.totp ≠ .hexdec := by decide

/-- A running command meets the invariant. -/
theorem inv_busyWith_nop : Inv (busyWith .nop []) where
  busy := ⟨by decide, fun w h => by cases h; rfl, by decide⟩
  error := .inl (by decide)
  engine := ⟨by decide, fun a h => by cases h⟩
  code := ⟨by decide, by decide, by decide, by decide⟩
  results := ⟨by decide, by decide, by decide, by decide⟩
  held := fun h => by cases h

theorem witness_OnlyTabledErrorCodesAppear : ∃ s, Inv s := ⟨_, inv_busyWith_nop⟩

theorem witness_EveryStepKeepsInvariant : ∃ s t, Inv s ∧ step s = .next t ∧ s ≠ t :=
  ⟨_, _, inv_busyWith_nop, rfl, by decide⟩

theorem witness_InterruptLine :
    (busyWith .nop []).resetIn = false ∧ (busyWith .nop []).status.done = false ∧
    (∃ t, step (busyWith .nop []) = .next t ∧ t.status.done = true) ∧ (0x00000002#32).getLsbD 1 = true ∧
    State.reset.seq = .idle ∧ (0x00000000#32).getLsbD 0 = false ∧
    (busyWith .nop []).seq = .running 0x00000000#32 ∧ readOnly .cfg = false ∧ Reg.cfg ≠ .ctrl ∧
    Reg.cfg ≠ .status :=
  ⟨by decide, by decide, ⟨_, rfl, by decide⟩, by decide, by decide, by decide, by decide, by decide, by decide,
    by decide⟩

theorem witness_StickyBitsClearedOnlyByHostOrReset :
    stickyState.status.accErr = true ∧ stickyState.status.busyErr = true ∧
    (∃ t, step (plan [.host (wr .status 0x00000300#32)] stickyState) = .next t ∧ t.status.accErr = false ∧
      t.status.busyErr = false) ∧
    (∃ t, step (plan [.host (wr .ctrl 0x00000002#32)] stickyState) = .next t ∧ t.status.accErr = false ∧
      t.status.busyErr = false) ∧
    (∃ t, step (plan [.assertReset] stickyState) = .next t ∧ t.status.accErr = false ∧
      t.status.busyErr = false) :=
  ⟨by decide, by decide, ⟨_, rfl, by decide, by decide⟩, ⟨_, rfl, by decide, by decide⟩,
    ⟨_, rfl, by decide, by decide⟩⟩

theorem witness_CompletionWinsOverSameCycleClear :
    (plan (sameCycle (wr .status 2#32)) (busyWith .nop [])).resetIn = false ∧
    (plan (sameCycle (wr .status 2#32)) (busyWith .nop [])).seq = .running 0x00000000#32 ∧
    runningRequest (plan (sameCycle (wr .status 2#32)) (busyWith .nop [])) = none ∧
    (answered .invalidKey (busyWith .hmac [])).engResp ≠ none ∧
    (plan (sameCycle (wr .status 2#32)) (busyWith .nop [])).schedule = sameCycle (wr .status 2#32) ++ [] := by
  decide

theorem witness_AcceptedCommandCompletes :
    (busyWith .totp []).resetIn = false ∧ (busyWith .totp []).seq = .running 0x00000009#32 ∧
    (busyWith .totp []).schedule = [] := by decide

theorem witness_NoPartialResultIsVisible :
    (busyWith .nop []).seq = .running 0x00000000#32 ∧ SequencerMove (busyWith .nop []) ∧
    (∃ t, step (busyWith .nop []) = .next t ∧ t.seq = .idle) ∧
    (∃ t, step (plan [.sequencer] (busyWith .hotp [])) = .next t ∧ t.seq = .running 0x00000005#32) ∧
    (∃ t, step (plan [.sequencer] (busyWith .nop [])) = .next t ∧ t.seq = .idle) ∧
    (∃ t, step (plan [.engine] (busyWith .hotp [])) = .next t) ∧
    (∃ t, step (plan [.agent] (busyWith .nop [])) = .next t ∧ t.seq = .idle) :=
  ⟨rfl, .inl rfl, ⟨_, rfl, by decide⟩, ⟨_, rfl, by decide⟩, ⟨_, rfl, by decide⟩, ⟨_, rfl⟩, ⟨_, rfl, by decide⟩⟩

/-- One change of each kind: a reset, a host write, an acceptance, an access error, a W1C write, a dropped
write, an error completion (ERRINFO and CODELEN), and a command's result. -/
theorem witness_RegistersChangeOnlyByTheirWriters :
    (∃ t, step (plan [.assertReset] stickyState) = .next t ∧ readReg t .status ≠ readReg stickyState .status) ∧
    (∃ t, step (plan [.host (wr .toff 5#32)] State.reset) = .next t ∧
      readReg t .toff ≠ readReg State.reset .toff) ∧
    (∃ t, step (plan [.host (wr .cmd 5#32)] State.reset) = .next t ∧ readReg t .cmd ≠ readReg State.reset .cmd) ∧
    (∃ t, step (plan [.host (.read .w8 0x0C#8)] State.reset) = .next t ∧
      readReg t .status ≠ readReg State.reset .status) ∧
    (∃ t, step (plan [.host (wr .status 0x100#32)] stickyState) = .next t ∧
      readReg t .status ≠ readReg stickyState .status) ∧
    (∃ t, step (plan [.host (wr .cfg 8#32)] (busyWith .nop [])) = .next t ∧
      readReg t .status ≠ readReg (busyWith .nop []) .status) ∧
    (∃ t, step (busyWith .hexdec []) = .next t ∧ readReg t .errinfo ≠ readReg (busyWith .hexdec []) .errinfo) ∧
    (∃ t, step (withCode (busyWith .trunc [(.cfg, 0#32)])) = .next t ∧
      readReg t .codelen ≠ readReg (withCode (busyWith .trunc [(.cfg, 0#32)])) .codelen) ∧
    (∃ t, step (busyWith .mfenc [(.ctrLo, 7#32)]) = .next t ∧
      readReg t (.msg 1) ≠ readReg (busyWith .mfenc [(.ctrLo, 7#32)]) (.msg 1)) := by
  refine ⟨⟨_, rfl, ?_⟩, ⟨_, rfl, ?_⟩, ⟨_, rfl, ?_⟩, ⟨_, rfl, ?_⟩, ⟨_, rfl, ?_⟩, ⟨_, rfl, ?_⟩, ⟨_, rfl, ?_⟩,
    ⟨_, rfl, ?_⟩, ⟨_, rfl, ?_⟩⟩ <;> decide

/-- The example of rule R106: an idle block with ERR = 1, and one with IE = 1. -/
theorem witness_NopOnlyCompletes :
    (failedState false).resetIn = false ∧ (failedState false).seq = .idle ∧
    (failedState false).status.err = true ∧ (failedState true).resetIn = false ∧
    (failedState true).seq = .idle ∧ (failedState true).ie = true := by decide

theorem witness_EngineAnswersOutstandingRequestOnly :
    (busyWith .hmac []).resetIn = false ∧ (busyWith .hmac []).seq = .running 0x00000002#32 ∧
    decode 0x00000002#32 = .ok .hmac ∧
    requestOf .hmac (busyWith .hmac []).regs = some { alg := .sha1, msg := Vector.replicate 8 0x00#8 } ∧
    (busyWith .hmac []).engReq = false ∧ (busyWith .hmac []).engResp = none ∧
    { busyWith .hmac [] with engReq := true }.engReq = true ∧
    (∃ t, exec .hmac (busyWith .hmac []) = .next t ∧ t.engReq = true) :=
  ⟨by decide, by decide, by decide, by decide, by decide, by decide, by decide, ⟨_, rfl, by decide⟩⟩

/-- The reserved algorithm, and the ends of the legal and illegal digit counts. -/
theorem witness_checks_of_TRUNC_HOTP_TOTP_LUHN :
    (written [(.cfg, 0x00003006#32)]).regs.cfg.alg.toNat = 3 ∧
    (written [(.cfg, 0x00002000#32)]).regs.cfg.alg.toNat ≠ 3 ∧
    (written [(.cfg, 0x00002000#32)]).regs.cfg.digits.toNat = 0 ∧
    (written [(.cfg, 0x00000020#32)]).regs.cfg.alg.toNat ≠ 3 ∧
    31 < (written [(.cfg, 0x00000020#32)]).regs.cfg.digits.toNat ∧
    31 < (written [(.cfg, 0x0000003F#32)]).regs.cfg.digits.toNat ∧
    DigitsLegal (written [(.cfg, 0x00000001#32)]) ∧ DigitsLegal (written [(.cfg, 0x0000001F#32)]) ∧
    Selected (written [(.cfg, 0x00000001#32)]) .sha1 20 ∧ Selected (written [(.cfg, 0x0000101F#32)]) .sha256 32 ∧
    Selected (written [(.cfg, 0x0000201F#32)]) .sha512 64 := by
  unfold DigitsLegal Selected
  decide

theorem witness_HmacStoresEngineDigest :
    (written [(.cfg, 0x00003000#32)]).regs.cfg.alg.toNat = 3 ∧ Selected (written [(.cfg, 0x00002000#32)]) .sha512 64 ∧
    (answered .cryptoUnavailable (written [])).engResp = some .cryptoUnavailable ∧
    (answered .invalidKey (written [])).engResp = some .invalidKey ∧
    (answered (.digest (bytes 64 digestOne)) (written [])).engResp = some (.digest (bytes 64 digestOne)) := by
  unfold Selected
  decide

theorem witness_TruncProducesCode :
    Selected (written [(.cfg, 0x0000011F#32)]) .sha1 20 ∧ DigitsLegal (written [(.cfg, 0x0000011F#32)]) ∧
    (written [(.cfg, 0x0000011F#32)]).regs.cfg.chk = true ∧ Selected (written [(.cfg, 0x00002001#32)]) .sha512 64 ∧
    DigitsLegal (written [(.cfg, 0x00002001#32)]) ∧ (written [(.cfg, 0x00002001#32)]).regs.cfg.chk = false := by
  unfold Selected DigitsLegal
  decide

theorem witness_LuhnWritesCheckDigit :
    (written [(.cfg, 0x00003000#32)]).regs.cfg.digits.toNat = 0 ∧
    31 < (written [(.cfg, 0x00003020#32)]).regs.cfg.digits.toNat ∧
    DigitsLegal (written [(.cfg, 0x0000301F#32)]) := by
  unfold DigitsLegal
  decide

theorem witness_HotpGeneratesCode :
    Selected (answered (.digest (bytes 64 digestOne)) (written [])) .sha1 20 ∧
    DigitsLegal (answered (.digest (bytes 64 digestOne)) (written [])) ∧
    (answered .cryptoUnavailable (written [])).engResp = some .cryptoUnavailable ∧
    (answered .invalidKey (written [])).engResp = some .invalidKey ∧
    (answered (.digest (bytes 64 digestOne)) (written [])).engResp = some (.digest (bytes 64 digestOne)) := by
  unfold Selected DigitsLegal
  decide

theorem witness_TstepDerivesTimeStep :
    (written [(.timeLo, 0xFFFFFFFF#32), (.timeHi, 0xFFFFFFFF#32)]).regs.time.toInt < 0 ∧
    (written []).regs.time.toInt = (0 : Nat) ∧
    (written [(.timeLo, 0xFFFFFFFF#32), (.timeHi, 0x7FFFFFFF#32)]).regs.time.toInt = (2 ^ 63 - 1 : Nat) := by
  decide

theorem witness_HexdecReadsText :
    (written []).regs.hexLen.toNat = 0 ∧ 16 < (written [(.hexlen, 17#32)]).regs.hexLen.toNat ∧
    16 < (written [(.hexlen, 31#32)]).regs.hexLen.toNat ∧
    (1 ≤ (written [(.hexlen, 16#32)]).regs.hexLen.toNat ∧ (written [(.hexlen, 16#32)]).regs.hexLen.toNat ≤ 16 ∧
      0 < (written [(.hexlen, 16#32)]).regs.hexLen.toNat ∧
      hexDigit (byteAt (written [(.hexlen, 16#32)]).regs.hex 0) = none ∧
      ∀ j, j < 0 → hexDigit (byteAt (written [(.hexlen, 16#32)]).regs.hex j) ≠ none) ∧
    (1 ≤ (written [(.hexlen, 3#32), (.hex 0, 0x61316700#32)]).regs.hexLen.toNat ∧
      2 < (written [(.hexlen, 3#32), (.hex 0, 0x61316700#32)]).regs.hexLen.toNat ∧
      hexDigit (byteAt (written [(.hexlen, 3#32), (.hex 0, 0x61316700#32)]).regs.hex 2) = none ∧
      ∀ j, j < 2 → hexDigit (byteAt (written [(.hexlen, 3#32), (.hex 0, 0x61316700#32)]).regs.hex j) ≠ none) ∧
    (1 ≤ (written [(.hexlen, 1#32), (.hex 0, 0x31670000#32)]).regs.hexLen.toNat ∧
      ∀ k, k < (written [(.hexlen, 1#32), (.hex 0, 0x31670000#32)]).regs.hexLen.toNat →
        hexDigit (byteAt (written [(.hexlen, 1#32), (.hex 0, 0x31670000#32)]).regs.hex k) ≠ none) := by decide

theorem witness_TotpGeneratesCode :
    (written [(.timeHi, 0x80000000#32)]).regs.cfg.alg.toNat ≠ 3 ∧ DigitsLegal (written [(.timeHi, 0x80000000#32)]) ∧
    (written [(.timeHi, 0x80000000#32)]).regs.time.toInt < 0 ∧
    Selected (answered (.digest (bytes 64 digestOne)) (written [(.timeLo, 59000#32)])) .sha1 20 ∧
    DigitsLegal (answered (.digest (bytes 64 digestOne)) (written [(.timeLo, 59000#32)])) ∧
    (answered (.digest (bytes 64 digestOne)) (written [(.timeLo, 59000#32)])).regs.time.toInt = (59000 : Nat) ∧
    (answered .cryptoUnavailable (written [(.timeLo, 59000#32)])).engResp = some .cryptoUnavailable ∧
    (answered .invalidKey (written [(.timeLo, 59000#32)])).engResp = some .invalidKey ∧
    (answered (.digest (bytes 64 digestOne)) (written [(.timeLo, 59000#32)])).engResp =
      some (.digest (bytes 64 digestOne)) := by
  unfold Selected DigitsLegal
  decide

theorem witness_BigEndianEncodingIsExact : 2 ^ 64 - 1 < 2 ^ 64 := by decide

/-- The last fixed offset of each algorithm, and the first beyond it. -/
theorem witness_TruncationWindowInDigest :
    selectOffset 15 (bytes 64 digestRfc) (digestLen .sha1) = (15, false) ∧
    selectOffset 16 (bytes 64 digestRfc) (digestLen .sha1) = (10, true) ∧
    selectOffset 27 (bytes 64 digestRfc) (digestLen .sha256) = (27, false) ∧
    selectOffset 59 (bytes 64 digestRfc) (digestLen .sha512) = (59, false) ∧
    selectOffset (-1) (bytes 64 digestRfc) (digestLen .sha512) = (0, true) := by decide

theorem witness_ReductionIsExact :
    (∃ t, exec .trunc (written [(.cfg, 0x0000000A#32)]) = .next t ∧
      Selected (written [(.cfg, 0x0000000A#32)]) .sha1 20 ∧ DigitsLegal (written [(.cfg, 0x0000000A#32)]) ∧
      10 ≤ (written [(.cfg, 0x0000000A#32)]).regs.cfg.digits.toNat ∧
      (written [(.cfg, 0x0000000A#32)]).regs.cfg.chk = false) ∧
    (∃ t, exec .trunc (written [(.cfg, 0x0000211F#32)]) = .next t ∧
      Selected (written [(.cfg, 0x0000211F#32)]) .sha512 64 ∧ DigitsLegal (written [(.cfg, 0x0000211F#32)]) ∧
      10 ≤ (written [(.cfg, 0x0000211F#32)]).regs.cfg.digits.toNat ∧
      (written [(.cfg, 0x0000211F#32)]).regs.cfg.chk = true) := by
  unfold Selected DigitsLegal
  exact ⟨⟨_, rfl, by decide⟩, ⟨_, rfl, by decide⟩⟩

theorem witness_DecimalTextReadsBack : (32 ≤ 32 ∧ 10 ^ 32 - 1 < 10 ^ 32) ∧ (0 ≤ 32 ∧ 0 < 10 ^ 0) := by decide

/-- TS-10 and TS-11: the last millisecond of step 0 and the first of step 1; and PERIOD = 0. -/
theorem witness_TimeStepBucketLaw :
    (written [(.timeLo, 29499#32)]).regs.time.toInt = (29499 : Nat) ∧
    30 = max (written [(.timeLo, 29499#32)]).regs.period.toNat 1 ∧ 29499 = 1000 * 30 * 1 - 501 ∧
    (written [(.timeLo, 29500#32)]).regs.time.toInt = ((29499 : Nat) : Int) + 1 ∧
    (written [(.timeLo, 29500#32)]).regs.period = (written [(.timeLo, 29499#32)]).regs.period ∧
    1 = max (written [(.period, 0#32)]).regs.period.toNat 1 := by decide

theorem witness_ShortHexTextReadsAsPadded :
    ∃ s s' t t' : State, s.regs.hexLen.toNat = 3 ∧ s'.regs.hexLen.toNat = 16 ∧
      (∀ k, k < 16 - 3 → byteAt s'.regs.hex k = 0x30#8) ∧
      (∀ k, k < 3 → byteAt s'.regs.hex (16 - 3 + k) = byteAt s.regs.hex k) ∧
      (∀ k, k < 3 → hexDigit (byteAt s.regs.hex k) ≠ none) ∧
      exec .hexdec s = .next t ∧ exec .hexdec s' = .next t' :=
  ⟨written [(.hexlen, 3#32), (.hex 0, 0x61314600#32)],
    written [(.hexlen, 16#32), (.hex 0, 0x30303030#32), (.hex 1, 0x30303030#32), (.hex 2, 0x30303030#32),
      (.hex 3, 0x30613146#32)], _, _, by decide, by decide, by decide, by decide, by decide, rfl, rfl⟩

theorem witness_TotpIsHotpOfTimeStep :
    Selected (written [(.timeLo, 59000#32)]) .sha1 20 ∧ DigitsLegal (written [(.timeLo, 59000#32)]) ∧
    (written [(.timeLo, 59000#32)]).regs.time.toInt = (59000 : Nat) ∧
    (∃ d, (fun _ : EngineRequest => EngineAnswer.digest (bytes 64 digestOne))
      { alg := .sha1, msg := be64 (stepNumber 59000 30) } = .digest d) ∧
    ¬ (∃ d, (fun _ : EngineRequest => EngineAnswer.invalidKey)
      { alg := .sha1, msg := be64 (stepNumber 59000 30) } = .digest d) := by
  unfold Selected DigitsLegal
  exact ⟨by decide, by decide, by decide, ⟨_, rfl⟩, fun ⟨_, h⟩ => by cases h⟩

theorem witness_PseudoInstructionsExpand :
    (HostLine.wrbuf .digest (List.replicate 64 0xFF#8)).wellFormed = true ∧
    4 * 15 < (List.replicate 64 0xFF#8).length ∧
    (plan (expandLine .wait) (busyWith .nop [])).resetIn = false ∧
    (plan (expandLine .wait) (busyWith .nop [])).schedule = expandLine .wait ++ [] ∧
    (plan (expandLine .wait) (busyWith .nop [])).status.busy = true ∧
    (plan (expandLine .wait) State.reset).status.busy = false := by decide

end Sys2Proof.Tests
end

section
/-! Number texts: a big-endian list of base-`b` digits reads back as its number, and with it the encodings
of a counter (`be64`, 00_scope.md rule R10) and of a code (`decText`, 00_scope.md rule R11). -/

namespace Sys2Proof.Proofs

open Sys2Proof.Machine Sys2Proof.Spec

/-- Reading from the left (Horner) the `len` low base-`b` digits of `n`, the most significant first, gives
`n` modulo `b ^ len`. The induction takes the last digit off, which leaves the digits of `n / b`. -/
theorem foldl_digits_eq_mod {α : Type} (b : Nat) (val : α → Nat) {l : List α} {len : Nat} (n : Nat)
    (hlen : l.length = len) (hdigit : ∀ i (h : i < l.length), val l[i] = n / b ^ (len - 1 - i) % b) :
    l.foldl (fun v c => b * v + val c) 0 = n % b ^ len := by
  induction l using List.reverseRecOn generalizing n len with
  | nil => subst hlen; simp [Nat.mod_one]
  | append_singleton l c ih =>
    obtain rfl : l.length + 1 = len := by simpa using hlen
    have hlast : val c = n % b := by simpa using hdigit l.length (by simp)
    have hinit : ∀ i (h : i < l.length), val l[i] = n / b / b ^ (l.length - 1 - i) % b := by
      intro i h
      have hi := hdigit i (by simp; omega)
      rw [List.getElem_append_left h, show l.length + 1 - 1 - i = l.length - 1 - i + 1 by omega] at hi
      rw [hi, Nat.div_div_eq_div_mul, Nat.pow_succ']
    calc (l ++ [c]).foldl (fun v c => b * v + val c) 0
        = b * (n / b % b ^ l.length) + n % b := by simp [ih (n / b) rfl hinit, hlast]
      _ = n % b ^ (l.length + 1) := by rw [Nat.pow_succ', Nat.mod_mul, Nat.add_comm]

theorem isBe64_be64 (n : Nat) : IsBe64 (be64 n) n := fun j => by
  have hj := toNat_byteAt_be64 n j.val j.isLt
  rwa [byteAt_eq_get _ _ j.isLt] at hj

/-- Settles O41: the bytes are `isBe64_be64`, and they are the eight base-256 digits of `n`. -/
theorem bigEndianEncodingIsExact : Obligations.BigEndianEncodingIsExact := by
  unfold Obligations.BigEndianEncodingIsExact
  intro n hn
  have hdigit : ∀ i (h : i < (be64 n).toList.length),
      (be64 n).toList[i].toNat = n / 256 ^ (8 - 1 - i) % 256 := fun i h => by
    simpa using isBe64_be64 n ⟨i, by simpa using h⟩
  refine ⟨isBe64_be64 n, ?_⟩
  rw [foldl_digits_eq_mod 256 BitVec.toNat n Vector.length_toList hdigit]
  exact Nat.mod_eq_of_lt hn

/-- Settles O45: each character is '0' plus a decimal digit of `n`, and the `len` characters are all the
digits of `n`. -/
theorem decimalTextReadsBack : Obligations.DecimalTextReadsBack := by
  unfold Obligations.DecimalTextReadsBack
  intro n len hlen hn
  have hlength : ((decText n len).toList.take len).length = len := by simp [hlen]
  have hdigit : ∀ i (h : i < ((decText n len).toList.take len).length),
      ((decText n len).toList.take len)[i].toNat - 0x30 = n / 10 ^ (len - 1 - i) % 10 := by
    intro i h
    rw [hlength] at h
    have hchar := toNat_decText n len ⟨i, by omega⟩ h
    rw [Fin.getElem_fin] at hchar
    rw [List.getElem_take, Vector.getElem_toList, hchar]
    exact Nat.add_sub_cancel_left _ _
  refine ⟨fun k hk => ?_, decText_beyond n len, ?_⟩
  · rw [toNat_decText n len k hk]
    omega
  · rw [foldl_digits_eq_mod 10 (fun c : Byte => c.toNat - 0x30) n hlength hdigit]
    exact Nat.mod_eq_of_lt hn

end Sys2Proof.Proofs
end

section
/-! The host's write to a register (20_memory.md rules R63 and R64), the reset state (10_state.md rule R47),
and with them ID, VERSION, CTRL and the reset values. -/

namespace Sys2Proof.Proofs

open Sys2Proof.Machine Sys2Proof.Spec

/-! ### A 32-bit write to a register -/

theorem hostAccess_wr_readOnly {r : Reg} {s : State} (v : Word) (hs : s.resetIn = false)
    (hr : readOnly r = true) : hostAccess (wr r v) s = accessError s := by
  simp [hostAccess, hostWrite, wr, hs, hr]

theorem hostAccess_wr_writable {r : Reg} {s : State} (v : Word) (hs : s.resetIn = false)
    (hr : readOnly r = false) : hostAccess (wr r v) s = writeReg r v s := by
  simp [hostAccess, hostWrite, wr, hs, hr]

theorem hostAccess_wr_ctrl {s : State} (v : Word) (hs : s.resetIn = false) :
    hostAccess (wr .ctrl v) s = if v.getLsbD 1 then resetBlock s else { s with ie := v.getLsbD 0 } :=
  hostAccess_wr_writable v hs rfl

/-! ### The reset state -/

theorem bufWord_replicate_zero (n j : Nat) : bufWord (Vector.replicate n 0x00#8) j = 0x00000000#32 := by
  have hbyte (i : Nat) : byteAt (Vector.replicate n 0x00#8) i = 0x00#8 := by
    by_cases hi : i < n <;> simp [byteAt, hi]
  simp only [bufWord, hbyte]
  rfl

theorem readReg_reset (r : Reg) : readReg State.reset r = resetWord r := by
  cases r with
  | msg j => exact bufWord_replicate_zero 8 j
  | hex j => exact bufWord_replicate_zero 16 j
  | code j => exact bufWord_replicate_zero 32 j
  | digest j => exact bufWord_replicate_zero 64 j
  | _ => decide

/-- No register shows the reset input or the model's own fields, all that `resetBlock` keeps. -/
theorem readReg_resetBlock (s : State) (r : Reg) : readReg (resetBlock s) r = resetWord r := by
  have hsame : readReg (resetBlock s) r = readReg State.reset r := by cases r <;> rfl
  rw [hsame, readReg_reset]

theorem isReset_resetBlock (s : State) : IsReset (resetBlock s) where
  regs := readReg_resetBlock s
  seq := resetBlock_seq s
  engReq := resetBlock_engReq s
  engResp := resetBlock_engResp s
  irq := rfl

/-! ### The statements -/

/-- Settles O15: the reads are constants of `readReg`, and both registers are read-only. -/
theorem identificationIsHardWired : Obligations.IdentificationIsHardWired := by
  unfold Obligations.IdentificationIsHardWired
  intro s
  exact ⟨rfl, rfl, fun hs v => ⟨hostAccess_wr_readOnly v hs rfl, hostAccess_wr_readOnly v hs rfl⟩⟩

/-- Settles O16: bit `i` of CTRL is `getLsbD_ctrlWord`, and the two writes are the branches of
`hostAccess_wr_ctrl`, neither of which looks at the sequencer. -/
theorem controlRegister : Obligations.ControlRegister := by
  unfold Obligations.ControlRegister
  intro s
  have hbit (i : Nat) : (readReg s .ctrl).getLsbD i = (decide (i = 0) && s.ie) := getLsbD_ctrlWord s.ie i
  refine ⟨by rw [hbit]; simp, ?reserved, fun hs v => ⟨fun hv => ?store, fun hv => ?softReset⟩⟩
  case reserved =>
    apply BitVec.eq_of_getLsbD_eq
    intro i _
    simp [BitVec.getLsbD_extractLsb', hbit]
  case store => rw [hostAccess_wr_ctrl v hs, if_neg (Bool.eq_false_iff.mp hv)]
  case softReset =>
    rw [hostAccess_wr_ctrl v hs, if_pos hv]
    exact isReset_resetBlock s

/-- Settles O19: resetting the block in `State.reset` changes nothing, so `isReset_resetBlock` speaks of it. -/
theorem resetValuesOfTheSpec : Obligations.ResetValuesOfTheSpec := by
  unfold Obligations.ResetValuesOfTheSpec
  have hfix : State.reset = resetBlock State.reset := rfl
  exact ⟨hfix ▸ isReset_resetBlock State.reset, rfl⟩

end Sys2Proof.Proofs
end

section
/-! The host accesses (20_memory.md): the effect of each kind of 32-bit access to a register and of an access
error, what each leaves unchanged, and the statements of that file that follow. -/

namespace Sys2Proof.Proofs

open Sys2Proof.Machine Sys2Proof.Spec

/-! ### Accesses to a register -/

theorem hostAccess_rd {s : State} (r : Reg) (hs : s.resetIn = false) :
    hostAccess (rd r) s = { s with readData := readReg s r } := by
  simp [hostAccess, hostRead, rd, hs]

theorem hostAccess_wr_ctrl_withoutSrst {v : Word} {s : State} (hv : v.getLsbD 1 = false)
    (hs : s.resetIn = false) : hostAccess (wr .ctrl v) s = { s with ie := v.getLsbD 0 } := by
  rw [hostAccess_wr_ctrl v hs, if_neg (Bool.eq_false_iff.mp hv)]

theorem hostAccess_wr_status {s : State} (v : Word) (hs : s.resetIn = false) :
    hostAccess (wr .status v) s = writeStatus v s :=
  hostAccess_wr_writable v hs rfl

/-- The writes of 40_command.md rule R103 that a running command makes the block drop. -/
theorem hostAccess_wr_dropped {r : Reg} {s : State} (v : Word) (hs : s.resetIn = false)
    (hr : readOnly r = false) (hctrl : r ≠ .ctrl) (hstatus : r ≠ .status) (hseq : s.seq ≠ .idle) :
    hostAccess (wr r v) s = dropWrite s := by
  cases hq : s.seq with
  | idle => exact absurd hq hseq
  | running w => simp [hostAccess_wr_writable v hs hr, writeReg, hctrl, hstatus, writeWhenIdle, hq]

theorem hostAccess_wr_stored {r : Reg} {s : State} (v : Word) (hs : s.resetIn = false)
    (hr : readOnly r = false) (hctrl : r ≠ .ctrl) (hstatus : r ≠ .status) (hcmd : r ≠ .cmd)
    (hseq : s.seq = .idle) : hostAccess (wr r v) s = { s with regs := storeReg s.regs r v } := by
  simp [hostAccess_wr_writable v hs hr, writeReg, hctrl, hstatus, writeWhenIdle, hseq, hcmd]

/-- The registers a host write stores to are the writable ones that have no rule of their own. -/
theorem hostStores_iff (r : Reg) :
    hostStores r ↔ readOnly r = false ∧ r ≠ .ctrl ∧ r ≠ .status ∧ r ≠ .cmd := by
  cases r <;> simp [hostStores, isCtr, isMsg, isDigest, isHexText, readOnly]

/-- What a stored word reads back as: its defined bits (20_memory.md rule R63). -/
theorem readReg_storeReg_same {r : Reg} (s : State) (v : Word) (hr : hostStores r) :
    readReg { s with regs := storeReg s.regs r v } r = v &&& definedBits r := by
  obtain ⟨hro, hctrl, hstatus, hcmd⟩ := (hostStores_iff r).mp hr
  have hall : v &&& 0xFFFFFFFF#32 = v := BitVec.and_allOnes
  cases r with
  | cfg => exact cfgWord_cfgOfWord v
  | hexlen => exact hexlenWord_extract v
  | msg j => exact (bufWord_setBufWord_same _ j.val v (by omega)).trans hall.symm
  | hex j => exact (bufWord_setBufWord_same _ j.val v (by omega)).trans hall.symm
  | digest j => exact (bufWord_setBufWord_same _ j.val v (by omega)).trans hall.symm
  | _ => simp_all [readReg, storeReg, definedBits, readOnly]

/-- Read after write (20_memory.md rule R68). -/
theorem readData_rd_wr {r : Reg} {s : State} (v : Word) (hs : s.resetIn = false) (hseq : s.seq = .idle)
    (hr : hostStores r) :
    (hostAccess (rd r) (hostAccess (wr r v) s)).readData = v &&& definedBits r := by
  obtain ⟨hro, hctrl, hstatus, hcmd⟩ := (hostStores_iff r).mp hr
  rw [hostAccess_wr_stored v hs hro hctrl hstatus hcmd hseq, hostAccess_rd r (by exact hs)]
  exact readReg_storeReg_same s v hr

/-! ### What an access leaves unchanged -/

/-- No register shows the model's own two fields. -/
theorem readReg_modelFields (s : State) (es : List Event) (d : Word) (r : Reg) :
    readReg { s with schedule := es, readData := d } r = readReg s r := by
  cases r <;> rfl

theorem readReg_ie_ne {r : Reg} (s : State) (b : Bool) (hr : r ≠ .ctrl) :
    readReg { s with ie := b } r = readReg s r := by
  cases r with
  | ctrl => exact absurd rfl hr
  | _ => rfl

theorem readReg_status_ne {r : Reg} (s : State) (st : Status) (hr : r ≠ .status) :
    readReg { s with status := st } r = readReg s r := by
  cases r with
  | status => exact absurd rfl hr
  | _ => rfl

/-- Clearing the same W1C bits again changes nothing (10_state.md rule R24). -/
theorem writeStatus_idempotent (v : Word) (s : State) :
    writeStatus v (writeStatus v s) = writeStatus v s := by
  simp [writeStatus, statusCleared]

theorem writeWhenIdle_withSchedule (r : Reg) (v : Word) (s : State) (es : List Event) :
    writeWhenIdle r v { s with schedule := es } = { writeWhenIdle r v s with schedule := es } := by
  obtain ⟨_, _, _, _, _, seq, _, _, _, _, _⟩ := s
  cases seq with
  | running w => rfl
  | idle =>
    simp only [writeWhenIdle]
    split_ifs <;> rfl

theorem writeReg_withSchedule (r : Reg) (v : Word) (s : State) (es : List Event) :
    writeReg r v { s with schedule := es } = { writeReg r v s with schedule := es } := by
  simp only [writeReg, writeCtrl]
  split_ifs
  · rfl
  · rfl
  · rfl
  · exact writeWhenIdle_withSchedule r v s es

/-- An access does not look at the moves to come, and leaves them. -/
theorem hostAccess_withSchedule (a : Access) (s : State) (es : List Event) :
    hostAccess a { s with schedule := es } = { hostAccess a s with schedule := es } := by
  cases a with
  | read w off =>
    simp only [hostAccess, hostRead]
    split_ifs
    · rfl
    · cases addressed w off with
      | none => rfl
      | some r => cases r <;> rfl
  | write w off v =>
    simp only [hostAccess, hostWrite]
    split_ifs
    · rfl
    · cases addressed w off with
      | none => rfl
      | some r =>
        dsimp only
        split_ifs
        · rfl
        · exact writeReg_withSchedule r v s es

theorem hostAccess_schedule (a : Access) (s : State) : (hostAccess a s).schedule = s.schedule :=
  (congrArg State.schedule (hostAccess_withSchedule a s s.schedule) :)

/-! ### Host accesses in the schedule -/

theorem step_host {a : Access} {es : List Event} {s : State} (hsched : s.schedule = .host a :: es) :
    step s = .next (hostAccess a { s with schedule := es }) := by
  simp [step, hsched, eventStep]

theorem runSteps_two {s t u : State} (hst : step s = .next t) (htu : step t = .next u) :
    runSteps 2 s = .next u := by
  simp [runSteps, core, Host.Core.run, hst, htu]

/-- Two accesses next in the schedule compose (20_memory.md rule R68). -/
theorem runSteps_two_host {a b : Access} {es : List Event} {s : State}
    (hsched : s.schedule = .host a :: .host b :: es) :
    runSteps 2 s = .next (hostAccess b (hostAccess a { s with schedule := es })) := by
  refine runSteps_two (step_host hsched) ?_
  rw [step_host (hostAccess_schedule a _), ← hostAccess_withSchedule]

/-! ### Access errors -/

/-- Where the registers lie: word-aligned, and outside the two gaps of the map (10_state.md rule R46). -/
theorem regOffset_placed (r : Reg) : regOffset r % 4 = 0 ∧
    ¬ (0x70 ≤ regOffset r ∧ regOffset r ≤ 0x7C) ∧ ¬ (0xA0 ≤ regOffset r ∧ regOffset r ≤ 0xBC) := by
  cases r with
  | msg j => simp only [regOffset]; omega
  | hex j => simp only [regOffset]; omega
  | code j => simp only [regOffset]; omega
  | digest j => simp only [regOffset]; omega
  | _ => decide

/-- Where the writable registers lie: at none of the read-only registers' offsets. -/
theorem regOffset_writable {r : Reg} (hr : readOnly r = false) :
    regOffset r ≠ 0x00 ∧ regOffset r ≠ 0x04 ∧ regOffset r ≠ 0x14 ∧
    ¬ (0x48 ≤ regOffset r ∧ regOffset r ≤ 0x5C) ∧ ¬ (0x80 ≤ regOffset r ∧ regOffset r ≤ 0x9C) := by
  cases r with
  | msg j => simp only [regOffset]; omega
  | hex j => simp only [regOffset]; omega
  | digest j => simp only [regOffset]; omega
  | code j => cases hr
  | _ => revert hr; decide

theorem toNat_regOffset (r : Reg) : (BitVec.ofNat 8 (regOffset r)).toNat = regOffset r := by
  rw [BitVec.toNat_ofNat, Nat.mod_eq_of_lt (regOffset_lt r)]

theorem not_isAccessError_rd (r : Reg) : ¬ IsAccessError (rd r) := by
  obtain ⟨haligned, hgap, hgap'⟩ := regOffset_placed r
  simp only [IsAccessError, rd, toNat_regOffset]
  tauto

theorem not_isAccessError_wr {r : Reg} (v : Word) (hr : readOnly r = false) :
    ¬ IsAccessError (wr r v) := by
  obtain ⟨haligned, hgap, hgap'⟩ := regOffset_placed r
  obtain ⟨hid, hversion, herrinfo, hresults, hcode⟩ := regOffset_writable hr
  simp only [IsAccessError, wr, toNat_regOffset]
  tauto

theorem hostAccess_read_error {w : Width} {off : BitVec 8} {s : State} (hs : s.resetIn = false)
    (herr : IsAccessError (.read w off)) :
    hostAccess (.read w off) s = { accessError s with readData := 0x00000000#32 } := by
  cases haddr : addressed w off with
  | none => simp [hostAccess, hostRead, hs, haddr]
  | some r =>
    obtain ⟨rfl, rfl⟩ := addressed_eq_some haddr
    exact absurd herr (not_isAccessError_rd r)

theorem hostAccess_write_error {w : Width} {off : BitVec 8} {v : Word} {s : State}
    (hs : s.resetIn = false) (herr : IsAccessError (.write w off v)) :
    hostAccess (.write w off v) s = accessError s := by
  cases haddr : addressed w off with
  | none => simp [hostAccess, hostWrite, hs, haddr]
  | some r =>
    obtain ⟨rfl, rfl⟩ := addressed_eq_some haddr
    cases hr : readOnly r with
    | true => exact hostAccess_wr_readOnly v hs hr
    | false => exact absurd herr (not_isAccessError_wr v hr)

/-! ### The statements -/

/-- Settles O7: no access looks at the schedule or changes it, so the two steps are the two accesses in turn
(`runSteps_two_host`), and a read after a write is `readData_rd_wr`. -/
theorem hostAccessesInPortOrder : Obligations.HostAccessesInPortOrder := by
  unfold Obligations.HostAccessesInPortOrder
  intro s a b es hsched
  refine ⟨_, runSteps_two_host hsched, rfl, ?_⟩
  rintro r v hs hseq hr rfl rfl
  exact readData_rd_wr v hs hseq hr

/-- Settles O11: an access error addresses no register or writes to a read-only one; STATUS is writable, and
a write there only clears. -/
theorem accessErrorsSetOnlyAccErr : Obligations.AccessErrorsSetOnlyAccErr := by
  unfold Obligations.AccessErrorsSetOnlyAccErr
  intro s hs
  refine ⟨fun w off herr => hostAccess_read_error hs herr,
    fun w off v herr => hostAccess_write_error hs herr, fun v haccErr => ?_⟩
  rw [hostAccess_wr_status v hs, writeStatus_status, statusCleared_accErr, Bool.and_eq_true] at haccErr
  exact haccErr.1

/-- Settles O13: every buffer is read by `bufWord` and every 64-bit register by its halves; the first word
of MFENC's bytes is the high half of CTR (`bufWord_be64_hi`). -/
theorem bytesPackedBigEndian : Obligations.BytesPackedBigEndian := by
  unfold Obligations.BytesPackedBigEndian
  refine ⟨fun s j b => wordByte_bufWord s.regs.digest j b b.isLt,
    fun s j b => wordByte_bufWord s.regs.code j b b.isLt,
    fun s j b => wordByte_bufWord s.regs.hex j b b.isLt,
    fun s j b => wordByte_bufWord s.regs.msg j b b.isLt,
    fun s => by simp [readReg], fun s => ?pairs, fun s => ?mfenc⟩
  case pairs => exact ⟨hiHalf_append_loHalf _, hiHalf_append_loHalf _, hiHalf_append_loHalf _,
    hiHalf_append_loHalf _⟩
  case mfenc => exact ⟨_, rfl, bufWord_be64_hi s.regs.ctr⟩

/-- Settles O18: a write is one of four kinds, a store of IE, a clearing in STATUS, a dropped write or a
store to the register; each has its own frame lemma and does nothing more the second time. -/
theorem accessesTouchOnlyTheirRegister : Obligations.AccessesTouchOnlyTheirRegister := by
  unfold Obligations.AccessesTouchOnlyTheirRegister
  intro s hs
  refine ⟨fun r => ⟨hostAccess_rd r hs, ?readTwice⟩, fun r v hr hcmd hsrst => ?write⟩
  case readTwice =>
    rw [hostAccess_rd r hs, hostAccess_rd r (by exact hs)]
    exact congrArg (fun d => { s with readData := d }) (readReg_modelFields s s.schedule _ r)
  case write =>
    by_cases hctrl : r = .ctrl
    · subst hctrl
      have hv := hsrst rfl
      rw [hostAccess_wr_ctrl_withoutSrst hv hs]
      exact ⟨fun r' hr' => readReg_ie_ne s _ fun h => hr' (.inl h), ⟨rfl, rfl, rfl⟩, ⟨rfl, rfl, rfl⟩,
        hostAccess_wr_ctrl_withoutSrst hv (by exact hs)⟩
    · by_cases hstatus : r = .status
      · subst hstatus
        rw [hostAccess_wr_status v hs]
        refine ⟨fun r' hr' => readReg_status_ne s _ fun h => hr' (.inl h), ⟨rfl, rfl, rfl⟩,
          ⟨rfl, rfl, rfl⟩, ?_⟩
        rw [hostAccess_wr_status v (by exact hs), writeStatus_idempotent]
      · by_cases hseq : s.seq = .idle
        · rw [hostAccess_wr_stored v hs hr hctrl hstatus hcmd hseq]
          refine ⟨fun r' hr' => readReg_storeReg_ne s r r' v fun h => hr' (.inl h), ⟨rfl, rfl, rfl⟩,
            ⟨rfl, rfl, rfl⟩, ?_⟩
          rw [hostAccess_wr_stored v (by exact hs) hr hctrl hstatus hcmd (by exact hseq),
            storeReg_idempotent]
        · rw [hostAccess_wr_dropped v hs hr hctrl hstatus hseq]
          exact ⟨fun r' hr' => readReg_status_ne s _ fun h => hr' (.inr ⟨h, hctrl, hseq⟩),
            ⟨rfl, rfl, rfl⟩, ⟨rfl, rfl, rfl⟩, hostAccess_wr_dropped v hs hr hctrl hstatus hseq⟩

end Sys2Proof.Proofs
end

section
/-! Command words (30_encoding.md): what `decode` answers on every word, and how a word that selects no
command runs. -/

namespace Sys2Proof.Proofs

open Sys2Proof.Machine Sys2Proof.Spec

/-! ### The opcode map -/

/-- The map is read both ways: OP selects exactly the command whose opcode it is. -/
theorem opcodeCommand_eq_some_iff {n : Nat} {i : Instr} :
    opcodeCommand n = some i ↔ n = (opcode i).toNat := by
  constructor
  · intro h
    unfold opcodeCommand at h
    split at h <;> cases h <;> rfl
  · rintro rfl
    cases i <;> rfl

theorem opcode_le_nine (i : Instr) : (opcode i).toNat ≤ 9 := by
  cases i <;> decide

/-- The map ends at opcode 9. -/
theorem opcodeCommand_eq_none_iff {n : Nat} : opcodeCommand n = none ↔ 9 < n := by
  constructor
  · intro hnone
    by_contra hle
    have hdefined : ∀ m < 10, opcodeCommand m ≠ none := by decide
    exact hdefined n (by omega) hnone
  · intro hn
    refine Option.eq_none_iff_forall_ne_some.mpr fun i hi => ?_
    exact absurd (opcodeCommand_eq_some_iff.mp hi ▸ hn) (opcode_le_nine i).not_gt

/-! ### Decoding -/

theorem decode_of_reservedBits {w : Word} (hrsvd : w.extractLsb' 8 24 ≠ 0#24) :
    decode w = .error .reservedBits :=
  if_neg hrsvd

theorem decode_of_opcodeReserved {w : Word} (hrsvd : w.extractLsb' 8 24 = 0#24)
    (hop : 9 < (w.extractLsb' 0 8).toNat) : decode w = .error .opcodeReserved := by
  rw [decode, if_pos hrsvd, opcodeCommand_eq_none_iff.mpr hop]

/-- A word selects a command exactly when RSVD = 0 and OP is the command's opcode (rule R82). -/
theorem decode_eq_ok_iff {w : Word} {i : Instr} :
    decode w = .ok i ↔ w.extractLsb' 8 24 = 0#24 ∧ (w.extractLsb' 0 8).toNat = (opcode i).toNat := by
  by_cases hrsvd : w.extractLsb' 8 24 = 0#24
  · rw [← opcodeCommand_eq_some_iff, decode, if_pos hrsvd]
    cases opcodeCommand (w.extractLsb' 0 8).toNat <;> simp [hrsvd]
  · simp [decode_of_reservedBits hrsvd, hrsvd]

theorem decode_encode (i : Instr) : decode (encode i) = .ok i := by
  rw [decode_eq_ok_iff, encode, BitVec.extractLsb'_append_eq_left, BitVec.extractLsb'_append_eq_right]
  exact ⟨rfl, rfl⟩

/-! ### An illegal word runs -/

theorem hostAccess_wr_cmd {s : State} (w : Word) (hs : s.resetIn = false) (hseq : s.seq = .idle) :
    hostAccess (wr .cmd w) s = accept w s := by
  rw [hostAccess_wr_writable w hs rfl]
  simp [writeReg, writeWhenIdle, hseq]

theorem step_sequencer {es : List Event} {s : State} (hsched : s.schedule = .sequencer :: es) :
    step s = sequencerStep { s with schedule := es } := by
  simp [step, hsched, eventStep]

theorem sequencerStep_illegal {w : Word} {why : IllegalCommand} {s : State} (hs : s.resetIn = false)
    (hseq : s.seq = .running w) (hd : decode w = .error why) :
    sequencerStep s = .next (completeError false (.illegal why) s) := by
  simp [sequencerStep, hs, hseq, hd, execIllegal]

/-- The error completion of a command that produces no code writes STATUS and ERRINFO only
(40_command.md rule R104). -/
theorem readReg_completeError_false {r : Reg} (e : CmdError) (s : State) (hstatus : r ≠ .status)
    (herrinfo : r ≠ .errinfo) : readReg (completeError false e s) r = readReg s r := by
  cases r with
  | status => exact absurd rfl hstatus
  | errinfo => exact absurd rfl herrinfo
  | _ => rfl

theorem completed_completeError_false (e : CmdError) (s : State) :
    Completed (fun _ => False) s (completeError false e s) where
  busy := rfl
  done := rfl
  accErr := rfl
  busyErr := rfl
  seq := rfl
  engReq := rfl
  engResp := rfl
  frame _ hr := readReg_completeError_false e s (fun h => hr (.inl h)) fun h => hr (.inr (.inl h))
  outside := ⟨rfl, rfl, rfl⟩

theorem failsPlain_completeError (e : CmdError) (s : State) :
    FailsPlain (.next (completeError false e s)) s
      (errCodeOf e).toNat (subCauseOf e).toNat (errIndexOf e).toNat :=
  ⟨_, rfl, completed_completeError_false e s, rfl, rfl, rfl, rfl⟩

theorem step_illegal_failsPlain {w : Word} {why : IllegalCommand} {es : List Event} {s : State}
    (hs : s.resetIn = false) (hseq : s.seq = .running w) (hsched : s.schedule = .sequencer :: es)
    (hd : decode w = .error why) :
    FailsPlain (step s) { s with schedule := es } 4 (subCauseOf (.illegal why)).toNat 0 := by
  rw [step_sequencer hsched, sequencerStep_illegal (by exact hs) (by exact hseq) hd]
  exact failsPlain_completeError (.illegal why) _

/-- A word with no command, written to CMD of an idle block, is accepted by that step; the sequencer's next
step reports why it has none (rule R83). -/
theorem illegalWord_accepted_then_failsPlain {w : Word} {why : IllegalCommand} {es : List Event} {s : State}
    (hs : s.resetIn = false) (hseq : s.seq = .idle)
    (hsched : s.schedule = .host (wr .cmd w) :: .sequencer :: es) (hd : decode w = .error why) :
    ∃ u, step s = .next u ∧ u.seq = .running w ∧ u.cmd = w ∧ u.status.busy = true ∧
      FailsPlain (step u) { u with schedule := es } 4 (subCauseOf (.illegal why)).toNat 0 := by
  refine ⟨accept w { s with schedule := .sequencer :: es }, ?accepted, rfl, rfl, rfl,
    step_illegal_failsPlain hs rfl rfl hd⟩
  case accepted => rw [step_host hsched, hostAccess_wr_cmd w (by exact hs) (by exact hseq)]

/-! ### The statements -/

/-- Settles O1: the ten words are the encodings of the ten commands, and a word that decodes has a
command's opcode for OP. -/
theorem tableWordsDecode : Obligations.TableWordsDecode := by
  unfold Obligations.TableWordsDecode
  refine ⟨decode_encode .nop, decode_encode .mfenc, decode_encode .hmac, decode_encode .trunc,
    decode_encode .luhn, decode_encode .hotp, decode_encode .tstep, decode_encode .hexenc,
    decode_encode .hexdec, decode_encode .totp, fun w i hd => ?_⟩
  obtain ⟨hrsvd, hop⟩ := decode_eq_ok_iff.mp hd
  exact ⟨hrsvd, hop ▸ opcode_le_nine i⟩

/-- Settles O2: OP at most 9 is in the opcode map (`opcodeCommand_eq_none_iff`); the two illegal classes are
the two other answers of `decode`. -/
theorem decodeTotalOnAllWords : Obligations.DecodeTotalOnAllWords := by
  unfold Obligations.DecodeTotalOnAllWords
  intro w
  refine ⟨fun hrsvd hop => ?command, decode_of_reservedBits, decode_of_opcodeReserved⟩
  case command =>
    obtain ⟨i, hi⟩ := Option.ne_none_iff_exists'.mp (mt opcodeCommand_eq_none_iff.mp hop.not_gt)
    have hop' := opcodeCommand_eq_some_iff.mp hi
    exact ⟨i, decode_eq_ok_iff.mpr ⟨hrsvd, hop'⟩, hop'.symm⟩

/-- Settles O8: both classes of words decode to a reason, and `illegalWord_accepted_then_failsPlain` holds
for either. -/
theorem illegalWordCompletesWithError : Obligations.IllegalWordCompletesWithError := by
  unfold Obligations.IllegalWordCompletesWithError
  intro s w es hs hseq hsched
  have hruns {why : IllegalCommand} (hd : decode w = .error why) :=
    illegalWord_accepted_then_failsPlain hs hseq hsched hd
  exact ⟨fun hrsvd => hruns (decode_of_reservedBits hrsvd),
    fun hrsvd hop => hruns (decode_of_opcodeReserved hrsvd hop)⟩

end Sys2Proof.Proofs
end

section
/-! The command protocol (40_command.md): acceptance, host accesses while a command runs, the success
completion that every command shares, and NOP. -/

namespace Sys2Proof.Proofs

open Sys2Proof.Machine Sys2Proof.Spec

/-! ### Acceptance and access errors -/

/-- Acceptance writes CMD, STATUS and ERRINFO only (rule R100). -/
theorem readReg_accept_ne {r : Reg} (w : Word) (s : State) (hcmd : r ≠ .cmd) (hstatus : r ≠ .status)
    (herrinfo : r ≠ .errinfo) : readReg (accept w s) r = readReg s r := by
  cases r with
  | cmd => exact absurd rfl hcmd
  | status => exact absurd rfl hstatus
  | errinfo => exact absurd rfl herrinfo
  | _ => rfl

/-- Of STATUS, an access error changes ACCERR alone, whatever its direction (20_memory.md rule R64). -/
theorem status_hostAccess_error {a : Access} {s : State} (hs : s.resetIn = false)
    (herr : IsAccessError a) : (hostAccess a s).status = { s.status with accErr := true } := by
  cases a with
  | read w off => rw [hostAccess_read_error hs herr, accessError_status]
  | write w off v => rw [hostAccess_write_error hs herr, accessError_status]

/-! ### The success completion -/

/-- Of the registers, a success completion writes STATUS and what the command committed (rule R101). -/
theorem readReg_completeOk_ne {r : Reg} (regs : Regs) (s : State) (hstatus : r ≠ .status) :
    readReg (completeOk regs s) r = readReg { s with regs := regs } r := by
  cases r with
  | status => exact absurd rfl hstatus
  | _ => rfl

/-- A success completion is a `Completed` step once the committed registers keep to `written`. -/
theorem completed_completeOk {written : Reg → Prop} {regs : Regs} {s : State}
    (hframe : SameRegsBut written s { s with regs := regs }) :
    Completed written s (completeOk regs s) where
  busy := rfl
  done := rfl
  accErr := rfl
  busyErr := rfl
  seq := rfl
  engReq := rfl
  engResp := rfl
  frame r hr := (readReg_completeOk_ne regs s fun h => hr (.inl h)).trans
    (hframe r fun h => hr (.inr (.inr h)))
  outside := ⟨rfl, rfl, rfl⟩

/-- A command that commits `regs` succeeds (rule R105). -/
theorem succeeds_of_exec_eq {i : Instr} {s : State} {regs : Regs} {written : Reg → Prop}
    {post : State → Prop} (hexec : exec i s = .next (completeOk regs s))
    (hframe : SameRegsBut written s { s with regs := regs }) (hpost : post (completeOk regs s)) :
    Succeeds i s written post :=
  ⟨_, hexec, completed_completeOk hframe, rfl, rfl, rfl, hpost⟩

/-- NOP commits the registers as they are (rule R106). -/
theorem exec_nop (s : State) : exec .nop s = .next (completeOk s.regs s) := rfl

/-! ### The statements -/

/-- Settles O9: an idle block accepts the word (`hostAccess_wr_cmd`), and a busy one drops the write as it
drops any other (`hostAccess_wr_dropped`). -/
theorem acceptanceOfCommandWord : Obligations.AcceptanceOfCommandWord := by
  unfold Obligations.AcceptanceOfCommandWord
  rintro s t w hs rfl
  refine ⟨fun hidle => ?accepted, fun w' hrun => ?dropped⟩
  case accepted =>
    rw [hostAccess_wr_cmd w hs hidle]
    have hframe : SameRegsBut (fun r => r = .cmd ∨ r = .status ∨ r = .errinfo) s (accept w s) :=
      fun r hr => readReg_accept_ne w s (fun h => hr (.inl h)) (fun h => hr (.inr (.inl h)))
        fun h => hr (.inr (.inr h))
    exact ⟨rfl, rfl, rfl, rfl, rfl, rfl, rfl, rfl, rfl, rfl, rfl, ⟨rfl, rfl, rfl⟩, hframe⟩
  case dropped =>
    rw [hostAccess_wr_dropped w hs rfl Reg.noConfusion Reg.noConfusion (by simp [hrun])]
    exact ⟨hrun, rfl⟩

/-- Settles O10: one access lemma per clause. Only the dropped write looks at the sequencer; CTRL, STATUS,
access errors and reads act in a busy block as in an idle one. -/
theorem writesWhileBusy : Obligations.WritesWhileBusy := by
  unfold Obligations.WritesWhileBusy
  intro s hs
  refine ⟨fun w r v hrun hr hctrl hstatus => ?dropped,
    fun w v _ hv => hostAccess_wr_ctrl_withoutSrst hv hs, fun w v _ hv => ?softReset,
    fun w v _ => ?clears, fun a herr => ?accessError, fun w r _ => ?read⟩
  case dropped => exact hostAccess_wr_dropped v hs hr hctrl hstatus (by simp [hrun])
  case softReset => rw [hostAccess_wr_ctrl v hs, if_pos hv, resetBlock_seq]
  case clears =>
    rw [hostAccess_wr_status v hs]
    exact ⟨rfl, rfl, rfl⟩
  case accessError =>
    rw [status_hostAccess_error hs herr]
    exact ⟨rfl, rfl⟩
  case read => rw [hostAccess_rd r hs]

/-- Settles O31: NOP is the success completion that commits nothing new (`exec_nop`); the error it clears is
cleared by its acceptance (`hostAccess_wr_cmd`). -/
theorem nopOnlyCompletes : Obligations.NopOnlyCompletes := by
  unfold Obligations.NopOnlyCompletes
  intro s
  refine ⟨succeeds_of_exec_eq (exec_nop s) (fun _ _ => rfl) rfl, fun hs hidle => ?accepted⟩
  case accepted =>
    rw [hostAccess_wr_cmd _ hs hidle, exec_nop]
    have hirq : irq (completeOk s.regs (accept 0x00000000#32 s)) = s.ie := Bool.and_true s.ie
    exact ⟨_, rfl, rfl, rfl, rfl, rfl, rfl, rfl, hirq⟩

end Sys2Proof.Proofs
end

section
/-! The functions of the truncation (41_truncate.md rules R130 to R135): offset, window, check digit. -/

namespace Sys2Proof.Proofs

open Sys2Proof.Machine Sys2Proof.Spec

/-! ### Offset and window -/

theorem isOffset_selectOffset (t : Int) (h : Vector Byte 64) (len : Nat) :
    IsOffset t h len (selectOffset t h len).1 (selectOffset t h len).2 := by
  unfold IsOffset
  rcases selectOffset_cases t h len with ⟨n, rfl, hle, heq⟩ | ⟨hout, heq⟩ <;> rw [heq]
  · rw [if_pos ⟨by omega, hle⟩]
    exact ⟨rfl, rfl⟩
  · rw [if_neg hout]
    exact ⟨rfl, rfl⟩

/-- The window's last byte is within the digest and never its last byte; a dynamic offset is a nibble
(rule R131). -/
theorem selectOffset_add_three_le (t : Int) (h : Vector Byte 64) (a : Alg) :
    (selectOffset t h (digestLen a)).1 + 3 ≤ digestLen a - 2 ∧
      ((selectOffset t h (digestLen a)).2 = true → (selectOffset t h (digestLen a)).1 + 3 ≤ 18) := by
  have hlen := (digestLen_bounds a).1
  rcases selectOffset_cases t h (digestLen a) with ⟨n, -, hle, heq⟩ | ⟨-, heq⟩ <;> rw [heq]
  · exact ⟨by omega, fun hdyn => absurd hdyn Bool.false_ne_true⟩
  · exact ⟨by omega, fun _ => by omega⟩

theorem toNat_extract31 (h : Vector Byte 64) (off : Nat) : (extract31 h off).toNat = window h off := by
  simp only [extract31, window, toNat_append_eq, BitVec.extractLsb'_toNat, Nat.shiftRight_zero]
  omega

theorem window_lt (h : Vector Byte 64) (off : Nat) : window h off < 2 ^ 31 :=
  toNat_extract31 h off ▸ (extract31 h off).isLt

/-! ### The check digit -/

/-- The doubling table of rule R12 is `doubled`: twice the digit, less 9 from ten on. -/
theorem luhnT_eq_doubled {d : Nat} (hd : d < 10) : luhnT d = doubled d := by
  revert d
  decide

/-- What the decimal position `p` of `n` adds to the total when the doubling starts at position 0 (`dbl`)
or at position 1. -/
def luhnAddend (dbl : Bool) (n p : Nat) : Nat :=
  if p % 2 = 0 ↔ dbl = true then doubled (n / 10 ^ p % 10) else n / 10 ^ p % 10

/-- Dropping the lowest digit moves every position down by one and turns the doubling over. -/
theorem luhnAddend_succ (dbl : Bool) (n p : Nat) :
    luhnAddend dbl n (p + 1) = luhnAddend (!dbl) (n / 10) p := by
  have hparity : ((p + 1) % 2 = 0 ↔ dbl = true) ↔ (p % 2 = 0 ↔ (!dbl) = true) := by
    cases dbl <;> simp <;> omega
  simp only [luhnAddend, hparity, Nat.div_div_eq_div_mul, Nat.pow_succ']

theorem luhnTotal_eq_sum (d n : Nat) (dbl : Bool) :
    luhnTotal d n dbl = ((List.range d).map (luhnAddend dbl n)).sum := by
  induction d generalizing n dbl with
  | zero => rfl
  | succ d ih =>
    have hlow : (if dbl then luhnT (n % 10) else n % 10) = luhnAddend dbl n 0 := by
      simp [luhnAddend, luhnT_eq_doubled (Nat.mod_lt n (by decide : 0 < 10))]
    have hrest : luhnAddend dbl n ∘ Nat.succ = luhnAddend (!dbl) (n / 10) :=
      funext (luhnAddend_succ dbl n)
    rw [luhnTotal, hlow, ih, List.range_succ_eq_map, List.map_cons, List.sum_cons, List.map_map, hrest]

theorem luhnAddend_true (n : Nat) : luhnAddend true n = fun p =>
    if p % 2 = 0 then doubled (n / 10 ^ p % 10) else n / 10 ^ p % 10 :=
  funext fun p => by simp [luhnAddend]

theorem luhn_eq_checkDigit (num d : Nat) : luhn num d = checkDigit num d := by
  rw [luhn, luhnTotal_eq_sum, luhnAddend_true, checkDigit]

/-- The total reads the low `d` digits only (rule R135). -/
theorem luhnTotal_mod_pow (d n : Nat) (dbl : Bool) : luhnTotal d (n % 10 ^ d) dbl = luhnTotal d n dbl := by
  induction d generalizing n dbl with
  | zero => rfl
  | succ d ih =>
    rw [luhnTotal, luhnTotal, Nat.pow_succ', Nat.mod_mul_right_mod, Nat.mod_mul_right_div_self, ih]

theorem luhn_mod_pow (num d : Nat) : luhn (num % 10 ^ d) d = luhn num d := by
  rw [luhn, luhn, luhnTotal_mod_pow]

/-! ### The statements -/

/-- Settles O42: the offset is bounded whichever way it is selected (`selectOffset_add_three_le`), and the
four bytes read there are the bits of `extract31`. -/
theorem truncationWindowInDigest : Obligations.TruncationWindowInDigest := by
  unfold Obligations.TruncationWindowInDigest
  intro t h a off dyn hsel
  have hbound := selectOffset_add_three_le t h a
  rw [hsel] at hbound
  exact ⟨hbound.1, hbound.2, toNat_extract31 h off, Nat.le_sub_one_of_lt (window_lt h off)⟩

/-- Settles O43: `isOffset_selectOffset` at the three digest lengths. -/
theorem offsetSelection : Obligations.OffsetSelection := by
  unfold Obligations.OffsetSelection
  exact ⟨rfl, rfl, rfl, fun t h a => isOffset_selectOffset t h (digestLen a)⟩

/-- Settles O46: the recursion over the digits is the sum over the positions (`luhn_eq_checkDigit`). -/
theorem luhnFunction : Obligations.LuhnFunction := by
  unfold Obligations.LuhnFunction
  exact ⟨fun num d => ⟨luhn_eq_checkDigit num d, luhn_le_nine num d, (luhn_mod_pow num d).symm⟩,
    by decide, by decide⟩

end Sys2Proof.Proofs
end

section
/-! MFENC, HMAC, TRUNC and LUHN (41_truncate.md), with what their checks answer and the error completion
that clears CODE (40_command.md rule R104). -/

namespace Sys2Proof.Proofs

open Sys2Proof.Machine Sys2Proof.Spec

/-! ### The checks -/

theorem checkAlg_of_reserved {r : Regs} (h : r.cfg.alg.toNat = 3) : checkAlg r = .error .algReserved := by
  simp [checkAlg, algOf, h]

theorem checkAlg_of_selected {s : State} {a : Alg} {len : Nat} (h : Selected s a len) :
    checkAlg s.regs = .ok a := by
  rcases h with ⟨h, rfl, -⟩ | ⟨h, rfl, -⟩ | ⟨h, rfl, -⟩ <;> simp [checkAlg, algOf, h]

theorem digestLen_of_selected {s : State} {a : Alg} {len : Nat} (h : Selected s a len) :
    digestLen a = len := by
  rcases h with ⟨-, rfl, rfl⟩ | ⟨-, rfl, rfl⟩ | ⟨-, rfl, rfl⟩ <;> rfl

theorem checkAlg_of_not_reserved {r : Regs} (h : r.cfg.alg.toNat ≠ 3) : ∃ a, checkAlg r = .ok a := by
  rcases checkAlg_cases r with ⟨h3, -⟩ | ⟨-, ha⟩ | ⟨-, ha⟩ | ⟨-, ha⟩
  · exact absurd h3 h
  · exact ⟨_, ha⟩
  · exact ⟨_, ha⟩
  · exact ⟨_, ha⟩

theorem checkDigits_of_zero {r : Regs} (h : r.cfg.digits.toNat = 0) :
    checkDigits r = .error .digitsZero :=
  if_pos h

theorem checkDigits_of_range {r : Regs} (h : 31 < r.cfg.digits.toNat) :
    checkDigits r = .error .digitsRange := by
  rw [checkDigits, maxDigits, if_neg (by omega), if_pos h]

theorem checkDigits_of_legal {s : State} (h : DigitsLegal s) :
    checkDigits s.regs = .ok s.regs.cfg.digits.toNat := by
  obtain ⟨hpos, hle⟩ := h
  rw [checkDigits, maxDigits, if_neg (by omega), if_neg (Nat.not_lt.mpr hle)]

/-- ALG is checked before DIGITS (60_exceptions.md rule R202). -/
theorem checkAlgDigits_of_alg_error {r : Regs} {e : CmdError} (h : checkAlg r = .error e) :
    checkAlgDigits r = .error e := by
  simp [checkAlgDigits, h]

theorem checkAlgDigits_of_digits_error {r : Regs} {e : CmdError} (halg : r.cfg.alg.toNat ≠ 3)
    (h : checkDigits r = .error e) : checkAlgDigits r = .error e := by
  obtain ⟨a, ha⟩ := checkAlg_of_not_reserved halg
  simp [checkAlgDigits, ha, h]

theorem checkAlgDigits_of_legal {s : State} {a : Alg} {len : Nat} (halg : Selected s a len)
    (hdigits : DigitsLegal s) : checkAlgDigits s.regs = .ok (a, s.regs.cfg.digits.toNat) := by
  simp [checkAlgDigits, checkAlg_of_selected halg, checkDigits_of_legal hdigits]

/-! ### The error completion of a command that produces a code -/

/-- It writes CODE and CODELEN beside STATUS and ERRINFO (40_command.md rule R104). -/
theorem readReg_completeError_true {r : Reg} (e : CmdError) (s : State) (hstatus : r ≠ .status)
    (herrinfo : r ≠ .errinfo) (hcode : ¬ isCode r) : readReg (completeError true e s) r = readReg s r := by
  cases r with
  | status => exact absurd rfl hstatus
  | errinfo => exact absurd rfl herrinfo
  | codelen => exact absurd (.inl rfl) hcode
  | code j => exact absurd (.inr ⟨j, rfl⟩) hcode
  | _ => rfl

theorem completed_completeError_true (e : CmdError) (s : State) :
    Completed isCode s (completeError true e s) where
  busy := rfl
  done := rfl
  accErr := rfl
  busyErr := rfl
  seq := rfl
  engReq := rfl
  engResp := rfl
  frame _ hr := readReg_completeError_true e s (fun h => hr (.inl h)) (fun h => hr (.inr (.inl h)))
    fun h => hr (.inr (.inr h))
  outside := ⟨rfl, rfl, rfl⟩

theorem failsCode_completeError (e : CmdError) (s : State) :
    FailsCode (.next (completeError true e s)) s
      (errCodeOf e).toNat (subCauseOf e).toNat (errIndexOf e).toNat :=
  ⟨_, rfl, completed_completeError_true e s, rfl, rfl, rfl, rfl,
    fun k => Vector.getElem_replicate k.isLt, rfl⟩

/-! ### MFENC -/

theorem exec_mfenc (s : State) : exec .mfenc s = .next (completeOk (mfencRegs s.regs) s) := rfl

theorem mfencRegs_frame (s : State) : SameRegsBut isMsg s { s with regs := mfencRegs s.regs } := by
  intro r hr
  cases r with
  | msg j => exact absurd ⟨j, rfl⟩ hr
  | _ => rfl

/-! ### HMAC -/

theorem completeWithEngine_of_error {c : Bool} {request : Except CmdError EngineRequest}
    {result : EngineRequest → EngineAnswer → Except CmdError Regs} {e : CmdError} {s : State}
    (h : request = .error e) : completeWithEngine c request result s = completeError c e s := by
  rw [h, completeWithEngine]

theorem completeWithEngine_of_answer {c : Bool} {request : Except CmdError EngineRequest}
    {result : EngineRequest → EngineAnswer → Except CmdError Regs} {q : EngineRequest} {a : EngineAnswer}
    {s : State} (h : request = .ok q) (ha : s.engResp = some a) :
    completeWithEngine c request result s = complete c (result q a) s := by
  simp [completeWithEngine, h, ha]

theorem isFilled_zeroFill (len : Nat) (d : Vector Byte 64) : IsFilled (zeroFill len d) d len := fun i => by
  simp [zeroFill]

theorem hmacRequest_of_alg_error {r : Regs} {e : CmdError} (h : checkAlg r = .error e) :
    hmacRequest r = .error e := by
  simp [hmacRequest, h]

theorem hmacRequest_of_selected {s : State} {a : Alg} {len : Nat} (h : Selected s a len) :
    hmacRequest s.regs = .ok { alg := a, msg := s.regs.msg } := by
  simp [hmacRequest, checkAlg_of_selected h]

theorem exec_hmac_of_alg_error {s : State} {e : CmdError} (h : checkAlg s.regs = .error e) :
    exec .hmac s = .next (completeError false e s) :=
  congrArg Host.Outcome.next (completeWithEngine_of_error (hmacRequest_of_alg_error h))

theorem exec_hmac_of_answer {s : State} {a : Alg} {len : Nat} {ans : EngineAnswer}
    (h : Selected s a len) (hans : s.engResp = some ans) :
    exec .hmac s =
      .next (complete false (hmacResult s.regs { alg := a, msg := s.regs.msg } ans) s) :=
  congrArg Host.Outcome.next (completeWithEngine_of_answer (hmacRequest_of_selected h) hans)

theorem digest_frame (s : State) (h : Vector Byte 64) :
    SameRegsBut isDigest s { s with regs := { s.regs with digest := h } } := by
  intro r hr
  cases r with
  | digest j => exact absurd ⟨j, rfl⟩ hr
  | _ => rfl

/-! ### LRES, and LUHN -/

/-- A check digit fits in LRES (10_state.md rule R40). -/
theorem toNat_ofNat_luhn (num d : Nat) : (BitVec.ofNat 4 (luhn num d)).toNat = luhn num d :=
  Nat.mod_eq_of_lt (by have := luhn_le_nine num d; omega)

theorem readReg_lres_ne {r : Reg} (s : State) (regs : Regs) (v : BitVec 4) (hr : r ≠ .lres) :
    readReg { s with regs := { regs with lres := v } } r = readReg { s with regs := regs } r := by
  cases r with
  | lres => exact absurd rfl hr
  | _ => rfl

theorem exec_luhn_of_digits_error {s : State} {e : CmdError} (h : checkDigits s.regs = .error e) :
    exec .luhn s = .next (completeError false e s) := by
  simp [exec, execLuhn, luhnResult, h]

theorem exec_luhn_of_legal {s : State} (h : DigitsLegal s) :
    exec .luhn s = .next (completeOk { s.regs with
      lres := BitVec.ofNat 4 (luhn s.regs.lnum.toNat s.regs.cfg.digits.toNat) } s) := by
  simp [exec, execLuhn, luhnResult, checkDigits_of_legal h]

/-! ### The result registers of a code -/

theorem storeCode_frame (s : State) (bin : BitVec 31) (off : Nat) (dyn : Bool) (otp len : Nat) :
    SameRegsBut isResult s { s with regs := storeCode s.regs bin off dyn otp len } := by
  intro r hr
  cases r with
  | truncv => exact absurd (.inl rfl) hr
  | offused => exact absurd (.inr (.inl rfl)) hr
  | otpLo => exact absurd (.inr (.inr (.inl rfl))) hr
  | otpHi => exact absurd (.inr (.inr (.inr (.inl rfl)))) hr
  | codelen => exact absurd (.inr (.inr (.inr (.inr (.inl rfl))))) hr
  | code j => exact absurd (.inr (.inr (.inr (.inr (.inr ⟨j, rfl⟩))))) hr
  | _ => rfl

/-- A selected offset fits in OFFUSED.OFF (10_state.md rule R39). -/
theorem toNat_ofNat_selectOffset (t : Int) (h : Vector Byte 64) (a : Alg) :
    (BitVec.ofNat 6 (selectOffset t h (digestLen a)).1).toNat = (selectOffset t h (digestLen a)).1 := by
  have hoff := (selectOffset_add_three_le t h a).1
  have hlen := (digestLen_bounds a).2
  exact Nat.mod_eq_of_lt (by omega)

/-- The text of a stored code is the text of OTP, which holds every code (10_state.md rule R37). -/
theorem isCodeText_storeCode (r : Regs) (bin : BitVec 31) (off : Nat) (dyn : Bool) {otp len : Nat}
    (hotp : otp < 2 ^ 64) (hlen : len ≤ 32) :
    IsCodeText (storeCode r bin off dyn otp len) (storeCode r bin off dyn otp len).otp.toNat len := by
  rw [toNat_otp_storeCode r bin off dyn otp len hotp]
  exact { codeLen := Nat.mod_eq_of_lt (by omega)
          text := toNat_decText otp len
          rest := decText_beyond otp len }

/-! ### The registers TRUNC leaves -/

/-- The offset and its kind that TOFF and DIGEST select for TRUNC (rule R130). -/
def truncOffset (r : Regs) (a : Alg) : Nat × Bool := selectOffset r.toff.toInt r.digest (digestLen a)

/-- The registers TRUNC leaves, LRES apart, for the code `otp` of `len` characters. -/
def truncStore (r : Regs) (a : Alg) (otp len : Nat) : Regs :=
  storeCode r (extract31 r.digest (truncOffset r a).1) (truncOffset r a).1 (truncOffset r a).2 otp len

theorem toNat_otp_truncStore (r : Regs) (a : Alg) {otp : Nat} (len : Nat) (hotp : otp < 2 ^ 64) :
    (truncStore r a otp len).otp.toNat = otp :=
  toNat_otp_storeCode _ _ _ _ _ _ hotp

theorem isCodeText_truncStore (r : Regs) (a : Alg) {otp len : Nat} (hotp : otp < 2 ^ 64)
    (hlen : len ≤ 32) : IsCodeText (truncStore r a otp len) (truncStore r a otp len).otp.toNat len :=
  isCodeText_storeCode _ _ _ _ hotp hlen

/-- The reduced value of rule R132. -/
def reduced (r : Regs) (a : Alg) (d : Nat) : Nat :=
  (extract31 r.digest (truncOffset r a).1).toNat % 10 ^ d

section
variable (r : Regs) (a : Alg) (d : Nat)

theorem truncRegs_off : (truncRegs r a d).off.toNat = (truncOffset r a).1 := by
  have hoff := toNat_ofNat_selectOffset r.toff.toInt r.digest a
  unfold truncRegs
  split <;> exact hoff

theorem truncRegs_dyn : (truncRegs r a d).dyn = (truncOffset r a).2 := by
  unfold truncRegs
  split <;> rfl

theorem truncRegs_truncv : (truncRegs r a d).truncv = extract31 r.digest (truncOffset r a).1 := by
  unfold truncRegs
  split <;> rfl

theorem reduced_eq : reduced r a d = (truncRegs r a d).truncv.toNat % 10 ^ d := by
  rw [truncRegs_truncv, reduced]

theorem reduced_lt : reduced r a d < 2 ^ 31 :=
  (Nat.mod_le _ _).trans_lt (BitVec.isLt _)

theorem isOffset_truncRegs : IsOffset r.toff.toInt r.digest (digestLen a) (truncRegs r a d).off.toNat
    (truncRegs r a d).dyn := by
  rw [truncRegs_off, truncRegs_dyn]
  exact isOffset_selectOffset _ _ _

theorem truncRegs_truncv_eq_window :
    (truncRegs r a d).truncv.toNat = window r.digest (truncRegs r a d).off.toNat := by
  rw [truncRegs_truncv, truncRegs_off, toNat_extract31]

/-- A reduced value with its check digit fits in OTP (rule R133). -/
theorem reduced_with_check_le : reduced r a d * 10 + luhn (reduced r a d) d ≤ (2 ^ 31 - 1) * 10 + 9 := by
  have hred := reduced_lt r a d
  have hluhn := luhn_le_nine (reduced r a d) d
  omega

theorem reduced_of_ten_le (hd : 10 ≤ d) : reduced r a d = (truncRegs r a d).truncv.toNat := by
  have htruncv := (truncRegs r a d).truncv.isLt
  have hpow : 10 ^ 10 ≤ 10 ^ d := Nat.pow_le_pow_right (by decide) hd
  rw [reduced_eq]
  exact Nat.mod_eq_of_lt (by omega)

theorem reduced_lt_pow : reduced r a d < 10 ^ d :=
  Nat.mod_lt _ (Nat.pow_pos (by decide))

/-- One more character holds the reduced value with its check digit (rule R133). -/
theorem reduced_with_check_lt_pow : reduced r a d * 10 + luhn (reduced r a d) d < 10 ^ (d + 1) := by
  have hred := reduced_lt_pow r a d
  have hluhn := luhn_le_nine (reduced r a d) d
  rw [Nat.pow_succ]
  omega

end

section
variable {r : Regs} {a : Alg} {d : Nat}

theorem truncRegs_of_not_chk (hchk : r.cfg.chk = false) :
    truncRegs r a d = truncStore r a (reduced r a d) d := by
  simp only [truncRegs, hchk]
  rfl

theorem truncRegs_of_chk (hchk : r.cfg.chk = true) :
    truncRegs r a d =
      { truncStore r a (reduced r a d * 10 + luhn (reduced r a d) d) (d + 1) with
        lres := BitVec.ofNat 4 (luhn (reduced r a d) d) } := by
  simp only [truncRegs, hchk]
  rfl

theorem truncRegs_otp_of_not_chk (hchk : r.cfg.chk = false) :
    (truncRegs r a d).otp.toNat = reduced r a d := by
  have hred := reduced_lt r a d
  rw [truncRegs_of_not_chk hchk]
  exact toNat_otp_truncStore r a d (by omega)

theorem truncRegs_otp_of_chk (hchk : r.cfg.chk = true) :
    (truncRegs r a d).otp.toNat = reduced r a d * 10 + luhn (reduced r a d) d := by
  have hotp := reduced_with_check_le r a d
  rw [truncRegs_of_chk hchk]
  exact toNat_otp_truncStore r a (d + 1) (by omega)

theorem truncRegs_lres_of_chk (hchk : r.cfg.chk = true) :
    (truncRegs r a d).lres.toNat = luhn (reduced r a d) d := by
  rw [truncRegs_of_chk hchk]
  exact toNat_ofNat_luhn _ d

theorem isCodeText_truncRegs_of_not_chk (hchk : r.cfg.chk = false) (hd : d ≤ 31) :
    IsCodeText (truncRegs r a d) (truncRegs r a d).otp.toNat d := by
  have hred := reduced_lt r a d
  rw [truncRegs_of_not_chk hchk]
  exact isCodeText_truncStore r a (by omega) (by omega)

theorem isCodeText_truncRegs_of_chk (hchk : r.cfg.chk = true) (hd : d ≤ 31) :
    IsCodeText (truncRegs r a d) (truncRegs r a d).otp.toNat (d + 1) := by
  have hotp := reduced_with_check_le r a d
  rw [truncRegs_of_chk hchk]
  have htext := isCodeText_truncStore r a (Nat.lt_of_le_of_lt hotp (by decide)) (Nat.succ_le_succ hd)
  exact ⟨htext.codeLen, htext.text, htext.rest⟩

end

section
variable {s : State} {a : Alg} {d : Nat}

theorem truncRegs_frame_of_not_chk (hchk : s.regs.cfg.chk = false) :
    SameRegsBut isResult s { s with regs := truncRegs s.regs a d } := by
  rw [truncRegs_of_not_chk hchk]
  exact storeCode_frame s _ _ _ _ _

theorem truncRegs_frame_of_chk (hchk : s.regs.cfg.chk = true) :
    SameRegsBut (fun r => isResult r ∨ r = .lres) s { s with regs := truncRegs s.regs a d } := by
  intro r hr
  rw [truncRegs_of_chk hchk, readReg_lres_ne _ _ _ fun h => hr (.inr h)]
  exact storeCode_frame s _ _ _ _ _ r fun h => hr (.inl h)

end

/-! ### TRUNC -/

theorem exec_trunc_of_error {s : State} {e : CmdError} (h : checkAlgDigits s.regs = .error e) :
    exec .trunc s = .next (completeError true e s) := by
  simp [exec, execTrunc, truncResult, h]

theorem exec_trunc_of_legal {s : State} {a : Alg} {len : Nat} (halg : Selected s a len)
    (hdigits : DigitsLegal s) :
    exec .trunc s = .next (completeOk (truncRegs s.regs a s.regs.cfg.digits.toNat) s) := by
  simp [exec, execTrunc, truncResult, checkAlgDigits_of_legal halg hdigits]

/-! ### The statements -/

/-- Settles O32: the bytes are those of `be64`, and their two words are the halves of CTR. -/
theorem mfencEncodesMovingFactor : Obligations.MfencEncodesMovingFactor := by
  unfold Obligations.MfencEncodesMovingFactor
  intro s
  exact succeeds_of_exec_eq (exec_mfenc s) (mfencRegs_frame s)
    ⟨isBe64_be64 _, bufWord_be64_hi _, bufWord_be64_lo _⟩

/-- Settles O33: the check of ALG comes before the request; after it, `hmacResult` answers each answer of
the engine. -/
theorem hmacStoresEngineDigest : Obligations.HmacStoresEngineDigest := by
  unfold Obligations.HmacStoresEngineDigest
  intro s
  refine ⟨fun h3 => ?reserved, fun a len halg => ⟨?request, fun hans => ?unavailable,
    fun hans => ?invalidKey, fun d hans => ?digest⟩⟩
  case reserved =>
    have hcheck := checkAlg_of_reserved h3
    rw [exec_hmac_of_alg_error hcheck, requestOf, hmacRequest_of_alg_error hcheck]
    exact ⟨failsPlain_completeError .algReserved s, rfl⟩
  case request =>
    rw [requestOf, hmacRequest_of_selected halg]
    rfl
  case unavailable =>
    rw [exec_hmac_of_answer halg hans]
    exact failsPlain_completeError .engineUnavailable s
  case invalidKey =>
    rw [exec_hmac_of_answer halg hans]
    exact failsPlain_completeError .engineKey s
  case digest =>
    rw [← digestLen_of_selected halg]
    exact succeeds_of_exec_eq (exec_hmac_of_answer halg hans) (digest_frame s _)
      (isFilled_zeroFill (digestLen a) d)

/-- Settles O34: a failed check is an error completion that clears CODE; the checks passed, `truncRegs` is
committed, and its fields are the truncation of DIGEST. -/
theorem truncProducesCode : Obligations.TruncProducesCode := by
  unfold Obligations.TruncProducesCode
  intro s
  refine ⟨fun h3 => ?algReserved, fun halg hzero => ?digitsZero, fun halg hrange => ?digitsRange,
    fun a len halg hdigits hchk => ?withoutCheck, fun a len halg hdigits hchk => ?withCheck⟩
  case algReserved =>
    rw [exec_trunc_of_error (checkAlgDigits_of_alg_error (checkAlg_of_reserved h3))]
    exact failsCode_completeError .algReserved s
  case digitsZero =>
    rw [exec_trunc_of_error (checkAlgDigits_of_digits_error halg (checkDigits_of_zero hzero))]
    exact failsCode_completeError .digitsZero s
  case digitsRange =>
    rw [exec_trunc_of_error (checkAlgDigits_of_digits_error halg (checkDigits_of_range hrange))]
    exact failsCode_completeError .digitsRange s
  case withoutCheck =>
    refine succeeds_of_exec_eq (exec_trunc_of_legal halg hdigits) (truncRegs_frame_of_not_chk hchk) ?_
    rw [completeOk_regs, ← digestLen_of_selected halg, ← reduced_eq]
    exact ⟨isOffset_truncRegs _ a _, truncRegs_truncv_eq_window _ a _, truncRegs_otp_of_not_chk hchk,
      isCodeText_truncRegs_of_not_chk hchk hdigits.2⟩
  case withCheck =>
    refine succeeds_of_exec_eq (exec_trunc_of_legal halg hdigits) (truncRegs_frame_of_chk hchk) ?_
    rw [completeOk_regs, ← digestLen_of_selected halg, ← reduced_eq, ← luhn_eq_checkDigit,
      truncRegs_lres_of_chk hchk]
    exact ⟨isOffset_truncRegs _ a _, truncRegs_truncv_eq_window _ a _, rfl, truncRegs_otp_of_chk hchk,
      isCodeText_truncRegs_of_chk hchk hdigits.2⟩

/-- Settles O35: DIGITS is the only check, and LRES gets `luhn` of LNUM. -/
theorem luhnWritesCheckDigit : Obligations.LuhnWritesCheckDigit := by
  unfold Obligations.LuhnWritesCheckDigit
  intro s
  refine ⟨fun hzero => ?digitsZero, fun hrange => ?digitsRange, fun hdigits => ?checkDigit⟩
  case digitsZero =>
    rw [exec_luhn_of_digits_error (checkDigits_of_zero hzero)]
    exact failsPlain_completeError .digitsZero s
  case digitsRange =>
    rw [exec_luhn_of_digits_error (checkDigits_of_range hrange)]
    exact failsPlain_completeError .digitsRange s
  case checkDigit =>
    refine succeeds_of_exec_eq (exec_luhn_of_legal hdigits) (fun r hr => readReg_lres_ne s _ _ hr) ?_
    rw [completeOk_regs, toNat_ofNat_luhn, luhn_eq_checkDigit]

/-- Settles O44: TRUNC commits `truncRegs`, whose OTP is the reduced value, with the check digit appended
when CHK = 1. Both bounds follow from those of the reduced value. -/
theorem reductionIsExact : Obligations.ReductionIsExact := by
  unfold Obligations.ReductionIsExact
  intro s t a len halg hdigits hexec
  rw [exec_trunc_of_legal halg hdigits] at hexec
  obtain rfl := Host.Outcome.next.inj hexec
  rw [completeOk_regs]
  refine ⟨_, reduced_eq s.regs a _, reduced_of_ten_le s.regs a _, fun hchk => ?withoutCheck,
    fun hchk => ?withCheck, ?bounds⟩
  case withoutCheck =>
    exact ⟨truncRegs_otp_of_not_chk hchk, (isCodeText_truncRegs_of_not_chk hchk hdigits.2).codeLen⟩
  case withCheck =>
    exact ⟨truncRegs_otp_of_chk hchk, (isCodeText_truncRegs_of_chk hchk hdigits.2).codeLen⟩
  case bounds =>
    cases hchk : s.regs.cfg.chk with
    | false =>
      rw [truncRegs_otp_of_not_chk hchk, (isCodeText_truncRegs_of_not_chk hchk hdigits.2).codeLen]
      have hred := reduced_lt s.regs a s.regs.cfg.digits.toNat
      exact ⟨reduced_lt_pow s.regs a _, by omega⟩
    | true =>
      rw [truncRegs_otp_of_chk hchk, (isCodeText_truncRegs_of_chk hchk hdigits.2).codeLen]
      exact ⟨reduced_with_check_lt_pow s.regs a _, reduced_with_check_le s.regs a _⟩

end Sys2Proof.Proofs
end

section
/-! TSTEP (42_moving_factor.md rules R170 to R172): the check of TIME, and the arithmetic of the time step. -/

namespace Sys2Proof.Proofs

open Sys2Proof.Machine Sys2Proof.Spec

/-! ### The check of TIME -/

theorem checkTime_of_negative {r : Regs} (h : r.time.toInt < 0) : checkTime r = .error .timeNegative :=
  if_pos h

theorem checkTime_of_nonneg {r : Regs} {t0 : Nat} (h : r.time.toInt = t0) : checkTime r = .ok t0 := by
  simp [checkTime, h]

/-- TIME holds at most 2^63 - 1 milliseconds (10_state.md rule R32). -/
theorem time_lt {r : Regs} {t0 : Nat} (h : r.time.toInt = t0) : t0 < 2 ^ 63 := by
  have hlt := BitVec.toInt_lt (x := r.time)
  omega

/-! ### The time step -/

/-- Rounding half up to seconds is adding 500 ms before one division (rule R172). -/
theorem stepNumber_eq_div (t period : Nat) : stepNumber t period = (t + 500) / (1000 * max period 1) := by
  have hround : (t / 1000 + if t % 1000 ≥ 500 then 1 else 0) = (t + 500) / 1000 := by
    split <;> omega
  rw [stepNumber, hround, Nat.div_div_eq_div_mul]

theorem stepNumber_lt {t : Nat} (period : Nat) (ht : t < 2 ^ 63) : stepNumber t period < 2 ^ 54 := by
  rw [stepNumber_eq_div, ← Nat.div_div_eq_div_mul]
  calc (t + 500) / 1000 / max period 1 ≤ (t + 500) / 1000 := Nat.div_le_self _ _
    _ < 2 ^ 54 := by omega

/-- Step `k` is the times of one half-open interval (rule R172). -/
theorem stepNumber_eq_iff (t period k : Nat) : stepNumber t period = k ↔
    1000 * max period 1 * k - 500 ≤ t ∧ t < 1000 * max period 1 * (k + 1) - 500 := by
  have hpos : 0 < 1000 * max period 1 := by omega
  rw [stepNumber_eq_div, Nat.div_eq_iff hpos, Nat.mul_succ, Nat.mul_comm k]
  omega

/-- The millisecond that ends a step is followed by the next step (rule R172). -/
theorem stepNumber_succ_of_boundary {t period k : Nat} (hk : 1 ≤ k)
    (ht : t = 1000 * max period 1 * k - 501) : stepNumber (t + 1) period = stepNumber t period + 1 := by
  obtain ⟨j, rfl⟩ : ∃ j, k = j + 1 := ⟨k - 1, by omega⟩
  have hbefore : stepNumber t period = j := by
    rw [stepNumber_eq_iff]
    simp only [Nat.mul_succ] at ht ⊢
    omega
  have hafter : stepNumber (t + 1) period = j + 1 := by
    rw [stepNumber_eq_iff]
    simp only [Nat.mul_succ] at ht ⊢
    omega
  rw [hbefore, hafter]

/-! ### TSTEP -/

/-- The registers TSTEP leaves for a TIME of `t0` milliseconds (rule R170). -/
def tstepRegs (r : Regs) (t0 : Nat) : Regs :=
  { r with ctr := BitVec.ofNat 64 (stepNumber t0 r.period.toNat) }

/-- A time step fits in CTR. -/
theorem toNat_ctr_tstepRegs {r : Regs} {t0 : Nat} (h : r.time.toInt = t0) :
    (tstepRegs r t0).ctr.toNat = stepNumber t0 r.period.toNat :=
  Nat.mod_eq_of_lt ((stepNumber_lt _ (time_lt h)).trans (by decide))

theorem readReg_ctr_ne {r : Reg} (s : State) (regs : Regs) (v : DWord) (hr : ¬ isCtr r) :
    readReg { s with regs := { regs with ctr := v } } r = readReg { s with regs := regs } r := by
  cases r with
  | ctrLo => exact absurd (.inl rfl) hr
  | ctrHi => exact absurd (.inr rfl) hr
  | _ => rfl

theorem exec_tstep_of_negative {s : State} (h : s.regs.time.toInt < 0) :
    exec .tstep s = .next (completeError false .timeNegative s) := by
  simp [exec, execTstep, tstepResult, checkTime_of_negative h]

theorem exec_tstep_of_nonneg {s : State} {t0 : Nat} (h : s.regs.time.toInt = t0) :
    exec .tstep s = .next (completeOk (tstepRegs s.regs t0) s) := by
  simp [exec, execTstep, tstepResult, checkTime_of_nonneg h, tstepRegs, timeStep, stepNumber]

/-! ### The statements -/

/-- Settles O37: the check of TIME is the only one, and every time TIME holds has a step below 2^54. -/
theorem tstepDerivesTimeStep : Obligations.TstepDerivesTimeStep := by
  unfold Obligations.TstepDerivesTimeStep
  intro s
  refine ⟨fun hneg => ?negative, fun t0 htime => ?step⟩
  case negative =>
    rw [exec_tstep_of_negative hneg]
    exact failsPlain_completeError .timeNegative s
  case step =>
    refine succeeds_of_exec_eq (exec_tstep_of_nonneg htime) (fun r hr => readReg_ctr_ne s _ _ hr) ?_
    rw [completeOk_regs, toNat_ctr_tstepRegs htime]
    exact ⟨rfl, stepNumber_lt _ (time_lt htime)⟩

/-- Settles O47: CTR is the step number, whose buckets are `stepNumber_eq_iff`. -/
theorem timeStepBucketLaw : Obligations.TimeStepBucketLaw := by
  unfold Obligations.TimeStepBucketLaw
  rintro s t0 p htime rfl
  refine ⟨_, exec_tstep_of_nonneg htime, ?_⟩
  rw [completeOk_regs, toNat_ctr_tstepRegs htime]
  refine ⟨stepNumber_eq_div t0 _, fun k _ => stepNumber_eq_iff t0 _ k, ?zero,
    fun s' k hk hboundary htime' hperiod => ?boundary⟩
  case zero =>
    rw [stepNumber_eq_iff]
    omega
  case boundary =>
    have htime' : s'.regs.time.toInt = (t0 + 1 : Nat) := htime'
    refine ⟨_, exec_tstep_of_nonneg htime', ?_⟩
    rw [completeOk_regs, toNat_ctr_tstepRegs htime', hperiod]
    exact stepNumber_succ_of_boundary hk hboundary

end Sys2Proof.Proofs
end

section
/-! HEXENC and HEXDEC (42_moving_factor.md rules R175 to R177), and commands run one after the other. -/

namespace Sys2Proof.Proofs

open Sys2Proof.Machine Sys2Proof.Spec

/-! ### Characters -/

theorem toNat_hexChar {v : Nat} (hv : v < 16) :
    (hexChar v).toNat = if v < 10 then 0x30 + v else 0x61 + (v - 10) := by
  unfold hexChar
  split
  · exact Nat.mod_eq_of_lt (by omega)
  · exact Nat.mod_eq_of_lt (by omega)

/-- The model's test and value of a character are the specification's `hexDigit` (rule R176). -/
theorem hexDigit_eq (c : Byte) : hexDigit c = if isHex c then some (hexVal c) else none := by
  simp only [hexDigit, isHex, hexVal, Bool.or_eq_true, Bool.and_eq_true, decide_eq_true_eq]
  grind

theorem isHex_eq_false_of_hexDigit {c : Byte} (h : hexDigit c = none) : isHex c = false := by
  simpa [hexDigit_eq] using h

theorem isHex_of_hexDigit {c : Byte} (h : hexDigit c ≠ none) : isHex c = true := by
  simpa [hexDigit_eq] using h

theorem hexDigit_of_isHex {c : Byte} (h : isHex c = true) : hexDigit c = some (hexVal c) := by
  rw [hexDigit_eq, if_pos h]

theorem hexVal_lt {c : Byte} (h : isHex c = true) : hexVal c < 16 := by
  simp only [isHex, Bool.or_eq_true, Bool.and_eq_true, decide_eq_true_eq] at h
  unfold hexVal
  split
  · omega
  · split <;> omega

/-- HEXDEC reads the character HEXENC writes for a nibble as that nibble. -/
theorem hexDigit_hexChar {v : Nat} (hv : v < 16) : hexDigit (hexChar v) = some v := by
  rw [hexDigit, toNat_hexChar hv]
  by_cases h10 : v < 10
  · rw [if_pos h10, if_pos (by omega), Nat.add_sub_cancel_left]
  · rw [if_neg h10, if_neg (by omega), if_neg (by omega), if_pos (by omega)]
    exact congrArg some (by omega)

/-! ### The number of a text -/

/-- Each of the first `n` characters is hexadecimal. -/
def HexText (h : Vector Byte 16) (n : Nat) : Prop := ∀ k, k < n → isHex (byteAt h k) = true

theorem HexText.init {h : Vector Byte 16} {n : Nat} (ht : HexText h (n + 1)) : HexText h n :=
  fun k hk => ht k (Nat.lt_succ_of_lt hk)

theorem hexNumber_hexValue {h : Vector Byte 16} {n : Nat} (ht : HexText h n) :
    HexNumber h n (hexValue h n) := by
  induction n with
  | zero => rfl
  | succ n ih =>
    exact ⟨_, _, ih ht.init, hexDigit_of_isHex (ht n (Nat.lt_succ_self n)), hexValue_succ h n⟩

theorem hexValue_lt {h : Vector Byte 16} {n : Nat} (ht : HexText h n) : hexValue h n < 16 ^ n := by
  induction n with
  | zero => exact Nat.one_pos
  | succ n ih =>
    have hinit := ih ht.init
    have hlast := hexVal_lt (ht n (Nat.lt_succ_self n))
    rw [hexValue_succ, Nat.pow_succ]
    omega

/-- The number of a text HEXDEC accepts fits in CTR (rule R176). -/
theorem toNat_ofNat_hexValue {h : Vector Byte 16} {n : Nat} (ht : HexText h n) (hn : n ≤ 16) :
    (BitVec.ofNat 64 (hexValue h n)).toNat = hexValue h n := by
  refine Nat.mod_eq_of_lt ?_
  calc hexValue h n < 16 ^ n := hexValue_lt ht
    _ ≤ 16 ^ 16 := Nat.pow_le_pow_right (by decide) hn
    _ = 2 ^ 64 := by decide

/-! ### HEXENC -/

theorem exec_hexenc (s : State) : exec .hexenc s = .next (completeOk (hexencRegs s.regs) s) := rfl

theorem hexencRegs_frame (s : State) : SameRegsBut isHexText s { s with regs := hexencRegs s.regs } := by
  intro r hr
  cases r with
  | hexlen => exact absurd (.inl rfl) hr
  | hex j => exact absurd (.inr ⟨j, rfl⟩) hr
  | _ => rfl

theorem byteAt_hexencRegs_hex (r : Regs) {k : Nat} (hk : k < 16) :
    byteAt (hexencRegs r).hex k = hexChar (r.ctr.toNat / 16 ^ (15 - k) % 16) :=
  byteAt_ofFn _ k hk

/-! ### HEXDEC -/

section
variable {s : State}

theorem exec_hexdec_of_zero (h : s.regs.hexLen.toNat = 0) :
    exec .hexdec s = .next (completeError false .hexLenZero s) := by
  simp [exec, execHexdec, hexdecResult, h]

theorem exec_hexdec_of_range (h : 16 < s.regs.hexLen.toNat) :
    exec .hexdec s = .next (completeError false .hexLenRange s) := by
  simp [exec, execHexdec, hexdecResult, h, Nat.ne_of_gt (Nat.zero_lt_of_lt h)]

theorem exec_hexdec_of_nonHex {k : Fin 16} (hpos : 1 ≤ s.regs.hexLen.toNat)
    (hle : s.regs.hexLen.toNat ≤ 16) (hk : firstNonHex s.regs.hex s.regs.hexLen.toNat = some k) :
    exec .hexdec s = .next (completeError false (.hexChar k) s) := by
  simp [exec, execHexdec, hexdecResult, Nat.ne_of_gt hpos, Nat.not_lt.mpr hle, hk]

theorem exec_hexdec_of_hexText (hpos : 1 ≤ s.regs.hexLen.toNat) (hle : s.regs.hexLen.toNat ≤ 16)
    (ht : HexText s.regs.hex s.regs.hexLen.toNat) :
    exec .hexdec s = .next (completeOk { s.regs with
      ctr := BitVec.ofNat 64 (hexValue s.regs.hex s.regs.hexLen.toNat) } s) := by
  have hnone := firstNonHex_eq_none fun k _ hk => ht k hk
  simp [exec, execHexdec, hexdecResult, Nat.ne_of_gt hpos, Nat.not_lt.mpr hle, hnone]

end

/-! ### HEXDEC after HEXENC -/

theorem hexText_hexencRegs (r : Regs) : HexText (hexencRegs r).hex 16 := fun k hk => by
  rw [byteAt_hexencRegs_hex r hk]
  exact isHex_of_hexDigit (by simp [hexDigit_hexChar (Nat.mod_lt _ (by decide : 0 < 16))])

theorem hexVal_hexencRegs (r : Regs) {k : Nat} (hk : k < 16) :
    hexVal (byteAt (hexencRegs r).hex k) = r.ctr.toNat / 16 ^ (15 - k) % 16 := by
  have hdigit := hexDigit_of_isHex (hexText_hexencRegs r k hk)
  rw [byteAt_hexencRegs_hex r hk, hexDigit_hexChar (Nat.mod_lt _ (by decide))] at hdigit
  rw [byteAt_hexencRegs_hex r hk]
  exact (Option.some.inj hdigit).symm

/-- The first `n` characters HEXENC writes stand for the top `n` nibbles of CTR. -/
theorem hexValue_hexencRegs_of_le (r : Regs) {n : Nat} (hn : n ≤ 16) :
    hexValue (hexencRegs r).hex n = r.ctr.toNat / 16 ^ (16 - n) := by
  induction n with
  | zero => exact (Nat.div_eq_of_lt r.ctr.isLt).symm
  | succ n ih =>
    rw [hexValue_succ, ih (by omega), hexVal_hexencRegs r hn, show 16 - n = 15 - n + 1 by omega,
      Nat.pow_succ, ← Nat.div_div_eq_div_mul, show 16 - (n + 1) = 15 - n by omega]
    exact Nat.div_add_mod _ 16

theorem hexValue_hexencRegs (r : Regs) : hexValue (hexencRegs r).hex 16 = r.ctr.toNat := by
  rw [hexValue_hexencRegs_of_le r (Nat.le_refl 16), Nat.sub_self, Nat.pow_zero, Nat.div_one]

/-- On the registers HEXENC leaves, HEXDEC writes to CTR the value it has (rule R177). -/
theorem exec_hexdec_of_hexencRegs {s : State} {r : Regs} (h : s.regs = hexencRegs r) :
    exec .hexdec s = .next (completeOk (hexencRegs r) s) := by
  have hlen : s.regs.hexLen.toNat = 16 := by rw [h]; rfl
  have htext : HexText s.regs.hex s.regs.hexLen.toNat := by
    rw [hlen, h]
    exact hexText_hexencRegs r
  rw [exec_hexdec_of_hexText (by omega) (by omega) htext, hlen, h, hexValue_hexencRegs,
    BitVec.ofNat_toNat, BitVec.setWidth_eq]
  rfl

/-! ### Running a command -/

/-- The state a run of `i` completes from: the command accepted, and its answer, if it asks, arrived. -/
def readied (E : EngineRequest → EngineAnswer) (i : Instr) (s : State) : State :=
  { accept (encode i) s with
    engReq := (requestOf i s.regs).isSome
    engResp := (requestOf i s.regs).map E }

section
variable {E : EngineRequest → EngineAnswer} {i : Instr} {s : State}

theorem runs_of_completeOk {r : Regs}
    (h : exec i (readied E i s) = .next (completeOk r (readied E i s))) :
    ∃ t, Runs E i s t ∧ t.regs = r ∧ t.status.err = false :=
  ⟨_, ⟨_, rfl, h⟩, rfl, rfl⟩

theorem runs_of_completeError {e : CmdError}
    (h : exec i (readied E i s) = .next (completeError true e (readied E i s))) :
    ∃ t, Runs E i s t ∧ t.regs = clearCode s.regs :=
  ⟨_, ⟨_, rfl, h⟩, rfl⟩

theorem engResp_readied {q : EngineRequest} (h : requestOf i s.regs = some q) :
    (readied E i s).engResp = some (E q) := by
  simp [readied, h]

end

section
variable (E : EngineRequest → EngineAnswer) {s : State}

theorem runs_tstep {t0 : Nat} (h : s.regs.time.toInt = t0) :
    ∃ t, Runs E .tstep s t ∧ t.regs = tstepRegs s.regs t0 := by
  obtain ⟨t, hruns, hregs, -⟩ :=
    runs_of_completeOk (exec_tstep_of_nonneg (s := readied E .tstep s) h)
  exact ⟨t, hruns, hregs⟩

theorem runs_hexenc (s : State) : ∃ t, Runs E .hexenc s t ∧ t.regs = hexencRegs s.regs := by
  obtain ⟨t, hruns, hregs, -⟩ := runs_of_completeOk (exec_hexenc (readied E .hexenc s))
  exact ⟨t, hruns, hregs⟩

theorem runs_hexdec_of_hexencRegs {r : Regs} (h : s.regs = hexencRegs r) :
    ∃ t, Runs E .hexdec s t ∧ t.regs = hexencRegs r ∧ t.status.err = false :=
  runs_of_completeOk (exec_hexdec_of_hexencRegs (s := readied E .hexdec s) h)

end

/-! ### The statements -/

/-- Settles O38: HEXENC has no check, and `toNat_hexChar` reads each character. -/
theorem hexencWritesText : Obligations.HexencWritesText := by
  unfold Obligations.HexencWritesText
  intro s
  refine succeeds_of_exec_eq (exec_hexenc s) (hexencRegs_frame s) ⟨rfl, fun k => ⟨_, rfl, ?_⟩⟩
  have hbyte : (hexencRegs s.regs).hex[k] = _ :=
    (byteAt_eq_get _ _ k.isLt).symm.trans (byteAt_hexencRegs_hex s.regs k.isLt)
  rw [completeOk_regs, hbyte, toNat_hexChar (Nat.mod_lt _ (by decide))]

/-- Settles O39: the two checks of HEXLEN, then the first character that is not hexadecimal, then the number
of the text. -/
theorem hexdecReadsText : Obligations.HexdecReadsText := by
  unfold Obligations.HexdecReadsText
  intro s
  refine ⟨fun hzero => ?lenZero, fun hrange => ?lenRange, fun hpos hle =>
    ⟨fun k hk hbad hlow => ?nonHex, fun hall => ?text⟩⟩
  case lenZero =>
    rw [exec_hexdec_of_zero hzero]
    exact failsPlain_completeError .hexLenZero s
  case lenRange =>
    rw [exec_hexdec_of_range hrange]
    exact failsPlain_completeError .hexLenRange s
  case nonHex =>
    have hk16 : k < 16 := by omega
    have hfirst := firstNonHex_eq_some ⟨k, hk16⟩ hk (isHex_eq_false_of_hexDigit hbad)
      fun j hj => isHex_of_hexDigit (hlow j hj)
    have hidx : (errIndexOf (.hexChar ⟨k, hk16⟩)).toNat = k := Nat.mod_eq_of_lt (by omega)
    have hfails := failsPlain_completeError (.hexChar ⟨k, hk16⟩) s
    rw [hidx] at hfails
    rw [exec_hexdec_of_nonHex hpos hle hfirst]
    exact hfails
  case text =>
    have htext : HexText s.regs.hex s.regs.hexLen.toNat := fun k hk => isHex_of_hexDigit (hall k hk)
    refine succeeds_of_exec_eq (exec_hexdec_of_hexText hpos hle htext)
      (fun r hr => readReg_ctr_ne s _ _ hr) ?_
    rw [completeOk_regs, toNat_ofNat_hexValue htext hle]
    exact hexNumber_hexValue htext

/-- Settles O48: HEXDEC commits the registers HEXENC left, CTR among them (`exec_hexdec_of_hexencRegs`). -/
theorem hexTextRoundTrip : Obligations.HexTextRoundTrip := by
  unfold Obligations.HexTextRoundTrip
  intro E s
  obtain ⟨t, hencodes, ht⟩ := runs_hexenc E s
  obtain ⟨u, hdecodes, hu, herr⟩ := runs_hexdec_of_hexencRegs E ht
  exact ⟨t, u, hencodes, by rw [ht]; rfl, hdecodes, by rw [hu]; rfl, herr⟩

end Sys2Proof.Proofs
end

section
/-! HOTP and TOTP (42_moving_factor.md rules R160, R180 and R181). -/

namespace Sys2Proof.Proofs

open Sys2Proof.Machine Sys2Proof.Spec

/-! ### The registers a generator leaves -/

/-- TOFF plays no part in a generator: its offset is dynamic (rule R160). -/
theorem selectOffset_neg_one (h : Vector Byte 64) (len : Nat) :
    selectOffset (-1) h len = ((byteAt h (len - 1)).toNat % 16, true) := by
  rcases selectOffset_cases (-1) h len with ⟨n, hn, -⟩ | ⟨-, heq⟩
  · omega
  · exact heq

theorem window_zeroFill (d : Vector Byte 64) {len off : Nat} (hoff : off + 3 < len) (hlen : len ≤ 64) :
    window (zeroFill len d) off = window d off := by
  unfold window
  rw [byteAt_zeroFill d len off (by omega) (by omega),
    byteAt_zeroFill d len (off + 1) (by omega) (by omega),
    byteAt_zeroFill d len (off + 2) (by omega) (by omega),
    byteAt_zeroFill d len (off + 3) (by omega) (by omega)]

/-- The offset HOTP and TOTP read from a digest (rule R160). -/
def hotpOffset (a : Alg) (d : Vector Byte 64) : Nat := (byteAt d (digestLen a - 1)).toNat % 16

/-- The registers HOTP leaves for a digest (rule R160). -/
def hotpRegs (r : Regs) (a : Alg) (d : Vector Byte 64) : Regs :=
  generatorRegs r a r.cfg.digits.toNat (be64 r.ctr.toNat) (zeroFill (digestLen a) d)

section
variable (r : Regs) (a : Alg) (d : Vector Byte 64)

theorem selectOffset_zeroFill :
    selectOffset (-1) (zeroFill (digestLen a) d) (digestLen a) = (hotpOffset a d, true) := by
  obtain ⟨hmin, hmax⟩ := digestLen_bounds a
  rw [selectOffset_neg_one, byteAt_zeroFill d _ _ (by omega) (by omega), hotpOffset]

theorem hotpRegs_off : (hotpRegs r a d).off.toNat = hotpOffset a d := by
  rw [hotpRegs, generatorRegs, selectOffset_zeroFill]
  exact Nat.mod_eq_of_lt (by unfold hotpOffset; omega)

theorem hotpRegs_dyn : (hotpRegs r a d).dyn = true := by
  rw [hotpRegs, generatorRegs, selectOffset_zeroFill]
  rfl

theorem hotpRegs_truncv : (hotpRegs r a d).truncv.toNat = window d (hotpOffset a d) := by
  obtain ⟨hmin, hmax⟩ := digestLen_bounds a
  rw [hotpRegs, generatorRegs, selectOffset_zeroFill, storeCode_truncv, toNat_extract31,
    window_zeroFill d (by unfold hotpOffset; omega) hmax]

theorem reduction_lt (bin : BitVec 31) (n : Nat) : bin.toNat % 10 ^ n < 2 ^ 64 :=
  (Nat.mod_le _ _).trans_lt (bin.isLt.trans (by decide))

theorem hotpRegs_otp :
    (hotpRegs r a d).otp.toNat = (hotpRegs r a d).truncv.toNat % 10 ^ r.cfg.digits.toNat :=
  toNat_otp_storeCode _ _ _ _ _ _ (reduction_lt _ _)

theorem isCodeText_hotpRegs (hdigits : r.cfg.digits.toNat ≤ 31) :
    IsCodeText (hotpRegs r a d) (hotpRegs r a d).otp.toNat r.cfg.digits.toNat :=
  isCodeText_storeCode _ _ _ _ (reduction_lt _ _) (hdigits.trans (by decide))

theorem generated_hotpRegs {s t : State} (hdigits : DigitsLegal s) (hcfg : r.cfg = s.regs.cfg)
    (ht : t.regs = hotpRegs r a d) : Generated s t (digestLen a) r.ctr.toNat d where
  msg := by rw [ht]; exact isBe64_be64 _
  digest := by rw [ht]; exact isFilled_zeroFill _ d
  off := by rw [ht]; exact hotpRegs_off r a d
  dyn := by rw [ht]; exact hotpRegs_dyn r a d
  truncv := by rw [ht, hotpRegs_off]; exact hotpRegs_truncv r a d
  otp := by rw [ht, ← hcfg]; exact hotpRegs_otp r a d
  code := by rw [ht, ← hcfg]; exact isCodeText_hotpRegs r a d (hcfg ▸ hdigits.2)

end

theorem hotpRegs_frame (s : State) (r : Regs) (a : Alg) (d : Vector Byte 64) :
    SameRegsBut (fun reg => isMsg reg ∨ isDigest reg ∨ isResult reg) { s with regs := r }
      { s with regs := hotpRegs r a d } := by
  intro reg hreg
  have hresult : ¬ isResult reg := fun h => hreg (.inr (.inr h))
  rw [hotpRegs, generatorRegs]
  refine (storeCode_frame { s with regs := { r with
    msg := be64 r.ctr.toNat, digest := zeroFill (digestLen a) d } } _ _ _ _ _ reg hresult).trans ?_
  cases reg with
  | msg j => exact absurd (.inl ⟨j, rfl⟩) hreg
  | digest j => exact absurd (.inr (.inl ⟨j, rfl⟩)) hreg
  | _ => rfl

theorem hotpRegs_tstepRegs_frame (s : State) (t0 : Nat) (a : Alg) (d : Vector Byte 64) :
    SameRegsBut (fun r => isCtr r ∨ isMsg r ∨ isDigest r ∨ isResult r) s
      { s with regs := hotpRegs (tstepRegs s.regs t0) a d } := fun r hr =>
  (hotpRegs_frame s _ a d r fun h => hr (.inr h)).trans (readReg_ctr_ne s _ _ fun h => hr (.inl h))

/-! ### Requests and answers -/

/-- A code-producing command whose check fails clears CODE and makes no request (40_command.md rules R104
and R107). -/
theorem refuses_of_request_error {request : Except CmdError EngineRequest} {e : CmdError}
    (result : EngineRequest → EngineAnswer → Except CmdError Regs) (s : State) (h : request = .error e) :
    FailsCode (.next (completeWithEngine true request result s)) s
      (errCodeOf e).toNat (subCauseOf e).toNat (errIndexOf e).toNat ∧ request.toOption = none := by
  rw [completeWithEngine_of_error h, h]
  exact ⟨failsCode_completeError e s, rfl⟩

/-- The checks of ALG and DIGITS, in order, of a command whose request makes them first
(60_exceptions.md rule R202). -/
theorem refuses_of_checks {request : Except CmdError EngineRequest}
    (result : EngineRequest → EngineAnswer → Except CmdError Regs) (s : State)
    (h : ∀ e, checkAlgDigits s.regs = .error e → request = .error e) :
    (s.regs.cfg.alg.toNat = 3 → FailsCode (.next (completeWithEngine true request result s)) s 1 0x03 0 ∧
      request.toOption = none) ∧
    (s.regs.cfg.alg.toNat ≠ 3 → s.regs.cfg.digits.toNat = 0 →
      FailsCode (.next (completeWithEngine true request result s)) s 1 0x01 0 ∧ request.toOption = none) ∧
    (s.regs.cfg.alg.toNat ≠ 3 → 31 < s.regs.cfg.digits.toNat →
      FailsCode (.next (completeWithEngine true request result s)) s 1 0x02 0 ∧
        request.toOption = none) := by
  refine ⟨fun h3 => ?algReserved, fun halg hzero => ?digitsZero, fun halg hrange => ?digitsRange⟩
  case algReserved =>
    exact refuses_of_request_error result s (h _ (checkAlgDigits_of_alg_error (checkAlg_of_reserved h3)))
  case digitsZero =>
    exact refuses_of_request_error result s
      (h _ (checkAlgDigits_of_digits_error halg (checkDigits_of_zero hzero)))
  case digitsRange =>
    exact refuses_of_request_error result s
      (h _ (checkAlgDigits_of_digits_error halg (checkDigits_of_range hrange)))

theorem hotpRequest_of_error {r : Regs} {e : CmdError} (h : checkAlgDigits r = .error e) :
    hotpRequest r = .error e := by
  simp [hotpRequest, h]

theorem totpRequest_of_error {r : Regs} {e : CmdError} (h : checkAlgDigits r = .error e) :
    totpRequest r = .error e := by
  simp [totpRequest, h]

/-- TIME is checked after ALG and DIGITS (60_exceptions.md rule R202). -/
theorem totpRequest_of_negative {r : Regs} (halg : r.cfg.alg.toNat ≠ 3)
    (hdigits : ∃ n, checkDigits r = .ok n) (h : r.time.toInt < 0) :
    totpRequest r = .error .timeNegative := by
  obtain ⟨a, ha⟩ := checkAlg_of_not_reserved halg
  obtain ⟨n, hn⟩ := hdigits
  simp [totpRequest, checkAlgDigits, ha, hn, checkTime_of_negative h]

theorem hotpResult_digest (r : Regs) (a : Alg) (d : Vector Byte 64) :
    hotpResult r { alg := a, msg := be64 r.ctr.toNat } (.digest d) = .ok (hotpRegs r a d) := rfl

/-- TOTP's results are HOTP's, for the registers TSTEP would leave (rule R180). -/
theorem totpResult_digest {r : Regs} {t0 : Nat} (htime : r.time.toInt = t0) (a : Alg)
    (d : Vector Byte 64) :
    totpResult r { alg := a, msg := be64 (stepNumber t0 r.period.toNat) } (.digest d) =
      .ok (hotpRegs (tstepRegs r t0) a d) := by
  rw [hotpRegs, toNat_ctr_tstepRegs htime]
  simp only [totpResult, hotpResult, digestOfAnswer, htime, Int.toNat_natCast]
  rfl

theorem hotpResult_of_not_digest {r : Regs} {q : EngineRequest} {ans : EngineAnswer}
    (h : ¬ ∃ d, ans = .digest d) : ∃ e, hotpResult r q ans = .error e := by
  cases ans with
  | cryptoUnavailable => exact ⟨_, rfl⟩
  | invalidKey => exact ⟨_, rfl⟩
  | digest d => exact absurd ⟨d, rfl⟩ h

theorem totpResult_of_not_digest {r : Regs} {q : EngineRequest} {ans : EngineAnswer}
    (h : ¬ ∃ d, ans = .digest d) : ∃ e, totpResult r q ans = .error e := by
  obtain ⟨e, he⟩ := hotpResult_of_not_digest (r := r) (q := q) h
  exact ⟨e, by rw [totpResult, he]⟩

section
variable {s : State} {a : Alg} {len t0 : Nat} (halg : Selected s a len) (hdigits : DigitsLegal s)
include halg hdigits

theorem hotpRequest_of_legal :
    hotpRequest s.regs = .ok { alg := a, msg := be64 s.regs.ctr.toNat } := by
  simp [hotpRequest, checkAlgDigits_of_legal halg hdigits]

theorem totpRequest_of_legal (htime : s.regs.time.toInt = t0) :
    totpRequest s.regs = .ok { alg := a, msg := be64 (stepNumber t0 s.regs.period.toNat) } := by
  simp [totpRequest, checkAlgDigits_of_legal halg hdigits, checkTime_of_nonneg htime, timeStep, stepNumber]

theorem exec_hotp_of_answer {ans : EngineAnswer} (hans : s.engResp = some ans) :
    exec .hotp s = .next (complete true
      (hotpResult s.regs { alg := a, msg := be64 s.regs.ctr.toNat } ans) s) :=
  congrArg Host.Outcome.next (completeWithEngine_of_answer (hotpRequest_of_legal halg hdigits) hans)

theorem exec_totp_of_answer (htime : s.regs.time.toInt = t0) {ans : EngineAnswer}
    (hans : s.engResp = some ans) :
    exec .totp s = .next (complete true
      (totpResult s.regs { alg := a, msg := be64 (stepNumber t0 s.regs.period.toNat) } ans) s) :=
  congrArg Host.Outcome.next (completeWithEngine_of_answer (totpRequest_of_legal halg hdigits htime) hans)

theorem exec_totp_of_digest (htime : s.regs.time.toInt = t0) {d : Vector Byte 64}
    (hans : s.engResp = some (.digest d)) :
    exec .totp s = .next (completeOk (hotpRegs (tstepRegs s.regs t0) a d) s) := by
  rw [exec_totp_of_answer halg hdigits htime hans, totpResult_digest htime, complete_ok]

end

/-! ### Running HOTP and TOTP -/

section
variable {E : EngineRequest → EngineAnswer} {s : State} {a : Alg} {len t0 : Nat}
  (halg : Selected s a len) (hdigits : DigitsLegal s)
include halg hdigits

theorem engResp_readied_hotp :
    (readied E .hotp s).engResp = some (E { alg := a, msg := be64 s.regs.ctr.toNat }) :=
  engResp_readied (by rw [requestOf, hotpRequest_of_legal halg hdigits]; rfl)

theorem engResp_readied_totp (htime : s.regs.time.toInt = t0) : (readied E .totp s).engResp =
    some (E { alg := a, msg := be64 (stepNumber t0 s.regs.period.toNat) }) :=
  engResp_readied (by rw [requestOf, totpRequest_of_legal halg hdigits htime]; rfl)

/-- A run of HOTP keeps CTR, HEX and HEXLEN, and with a digest commits `hotpRegs` (rule R160). -/
theorem runs_hotp : ∃ t, Runs E .hotp s t ∧ t.regs.ctr = s.regs.ctr ∧ t.regs.hex = s.regs.hex ∧
    t.regs.hexLen = s.regs.hexLen ∧
    ∀ d, E { alg := a, msg := be64 s.regs.ctr.toNat } = .digest d →
      t.regs = hotpRegs s.regs a d ∧ t.status.err = false := by
  have hexec := exec_hotp_of_answer (s := readied E .hotp s) halg hdigits
    (engResp_readied_hotp halg hdigits)
  by_cases hans : ∃ d, E { alg := a, msg := be64 s.regs.ctr.toNat } = .digest d
  case pos =>
    obtain ⟨d, hd⟩ := hans
    rw [hd] at hexec ⊢
    obtain ⟨t, hruns, ht, herr⟩ := runs_of_completeOk hexec
    refine ⟨t, hruns, by rw [ht]; rfl, by rw [ht]; rfl, by rw [ht]; rfl, fun d' hd' => ?_⟩
    obtain rfl := EngineAnswer.digest.inj hd'
    exact ⟨ht, herr⟩
  case neg =>
    obtain ⟨e, he⟩ := hotpResult_of_not_digest hans
    rw [he, complete_error] at hexec
    obtain ⟨t, hruns, ht⟩ := runs_of_completeError hexec
    exact ⟨t, hruns, by rw [ht]; rfl, by rw [ht]; rfl, by rw [ht]; rfl,
      fun d hd => absurd ⟨d, hd⟩ hans⟩

/-- A run of TOTP keeps HEX and HEXLEN; with a digest it commits what HOTP would on the registers TSTEP
leaves, and without one it keeps CTR (rule R180). -/
theorem runs_totp (htime : s.regs.time.toInt = t0) : ∃ t, Runs E .totp s t ∧ t.regs.hex = s.regs.hex ∧
    t.regs.hexLen = s.regs.hexLen ∧
    (∀ d, E { alg := a, msg := be64 (stepNumber t0 s.regs.period.toNat) } = .digest d →
      t.regs = hotpRegs (tstepRegs s.regs t0) a d ∧ t.status.err = false) ∧
    ((¬ ∃ d, E { alg := a, msg := be64 (stepNumber t0 s.regs.period.toNat) } = .digest d) →
      t.regs.ctr = s.regs.ctr) := by
  have hans := engResp_readied_totp (E := E) halg hdigits htime
  by_cases hdigest : ∃ d, E { alg := a, msg := be64 (stepNumber t0 s.regs.period.toNat) } = .digest d
  case pos =>
    obtain ⟨d, hd⟩ := hdigest
    rw [hd] at hans ⊢
    obtain ⟨t, hruns, ht, herr⟩ :=
      runs_of_completeOk (exec_totp_of_digest (s := readied E .totp s) halg hdigits htime hans)
    refine ⟨t, hruns, by rw [ht]; rfl, by rw [ht]; rfl, fun d' hd' => ?_,
      fun hnot => absurd ⟨d, rfl⟩ hnot⟩
    obtain rfl := EngineAnswer.digest.inj hd'
    exact ⟨ht, herr⟩
  case neg =>
    have hexec := exec_totp_of_answer (s := readied E .totp s) halg hdigits htime hans
    obtain ⟨e, he⟩ := totpResult_of_not_digest hdigest
    rw [he, complete_error] at hexec
    obtain ⟨t, hruns, ht⟩ := runs_of_completeError hexec
    exact ⟨t, hruns, by rw [ht]; rfl, by rw [ht]; rfl, fun d hd => absurd ⟨d, hd⟩ hdigest,
      fun _ => by rw [ht]; rfl⟩

end

/-- Registers that differ in HEX and HEXLEN alone agree on what rule R181 compares. -/
theorem sameCodeRegs_of_hexText {t u : State} (hex : Vector Byte 16) (hexLen : BitVec 5)
    (h : u.regs = { t.regs with hex := hex, hexLen := hexLen }) : SameCodeRegs t u := by
  rintro r ((rfl | rfl) | ⟨j, rfl⟩ | ⟨j, rfl⟩ | rfl | rfl | rfl | rfl | rfl | ⟨j, rfl⟩) <;>
    simp only [readReg, h]

theorem selected_of_cfg_eq {s t : State} {a : Alg} {len : Nat} (h : Selected s a len)
    (hcfg : t.regs.cfg = s.regs.cfg) : Selected t a len := by
  unfold Selected
  rw [hcfg]
  exact h

theorem digitsLegal_of_cfg_eq {s t : State} (h : DigitsLegal s) (hcfg : t.regs.cfg = s.regs.cfg) :
    DigitsLegal t := by
  unfold DigitsLegal
  rw [hcfg]
  exact h

/-! ### The statements -/

/-- Settles O36: a failed check makes no request; after the checks HOTP commits `hotpRegs`, or reports the
engine's error. -/
theorem hotpGeneratesCode : Obligations.HotpGeneratesCode := by
  unfold Obligations.HotpGeneratesCode
  intro s
  obtain ⟨halgReserved, hdigitsZero, hdigitsRange⟩ :=
    refuses_of_checks (hotpResult s.regs) s fun _ => hotpRequest_of_error
  refine ⟨halgReserved, hdigitsZero, hdigitsRange, fun a len halg hdigits => ⟨?request,
    fun hans => ?unavailable, fun hans => ?invalidKey, fun d hans => ?digest⟩⟩
  case request =>
    rw [requestOf, hotpRequest_of_legal halg hdigits]
    exact ⟨_, rfl, isBe64_be64 _⟩
  case unavailable =>
    rw [exec_hotp_of_answer halg hdigits hans]
    exact failsCode_completeError .engineUnavailable s
  case invalidKey =>
    rw [exec_hotp_of_answer halg hdigits hans]
    exact failsCode_completeError .engineKey s
  case digest =>
    rw [← digestLen_of_selected halg]
    exact succeeds_of_exec_eq (exec_hotp_of_answer halg hdigits hans) (hotpRegs_frame s s.regs a d)
      (generated_hotpRegs s.regs a d hdigits rfl rfl)

/-- Settles O40: HOTP's checks, then that of TIME; after them TOTP commits what HOTP would on the registers
TSTEP leaves, or reports the engine's error with CTR as it was. -/
theorem totpGeneratesCode : Obligations.TotpGeneratesCode := by
  unfold Obligations.TotpGeneratesCode
  intro s
  obtain ⟨halgReserved, hdigitsZero, hdigitsRange⟩ :=
    refuses_of_checks (totpResult s.regs) s fun _ => totpRequest_of_error
  refine ⟨halgReserved, hdigitsZero, hdigitsRange, fun halg hdigits hneg => ?timeNegative,
    fun a len t0 halg hdigits htime => ⟨?request, fun hans => ?unavailable, fun hans => ?invalidKey,
      fun d hans => ?digest⟩⟩
  case timeNegative =>
    exact refuses_of_request_error _ s
      (totpRequest_of_negative halg ⟨_, checkDigits_of_legal hdigits⟩ hneg)
  case request =>
    rw [requestOf, totpRequest_of_legal halg hdigits htime]
    exact ⟨_, rfl, isBe64_be64 _⟩
  case unavailable =>
    rw [exec_totp_of_answer halg hdigits htime hans]
    exact failsCode_completeError .engineUnavailable s
  case invalidKey =>
    rw [exec_totp_of_answer halg hdigits htime hans]
    exact failsCode_completeError .engineKey s
  case digest =>
    rw [← digestLen_of_selected halg, ← toNat_ctr_tstepRegs htime]
    exact succeeds_of_exec_eq (exec_totp_of_digest halg hdigits htime hans)
      (hotpRegs_tstepRegs_frame s t0 a d)
      ⟨generated_hotpRegs (tstepRegs s.regs t0) a d hdigits rfl rfl, rfl⟩

/-- Settles O50: the three sequences reach HOTP's work on the same registers, HEX and HEXLEN apart:
`tstepRegs`, which HEXENC and HEXDEC keep. -/
theorem totpIsHotpOfTimeStep : Obligations.TotpIsHotpOfTimeStep := by
  unfold Obligations.TotpIsHotpOfTimeStep
  intro E s a len t0 halg hdigits htime
  obtain ⟨s1, hrun1, h1⟩ := runs_tstep E htime
  obtain ⟨s2, hrun2, h2⟩ := runs_hexenc E s1
  obtain ⟨s3, hrun3, h3, -⟩ := runs_hexdec_of_hexencRegs E h2
  have hcfg1 : s1.regs.cfg = s.regs.cfg := by rw [h1]; rfl
  have hcfg3 : s3.regs.cfg = s.regs.cfg := by rw [h3]; exact hcfg1
  have hctr1 : s1.regs.ctr.toNat = stepNumber t0 s.regs.period.toNat := by
    rw [h1, toNat_ctr_tstepRegs htime]
  have hctr3 : s3.regs.ctr.toNat = stepNumber t0 s.regs.period.toNat := by rw [h3]; exact hctr1
  obtain ⟨t, hrunT, hhexT, hlenT, hdigestT, hfailT⟩ := runs_totp (E := E) halg hdigits htime
  obtain ⟨u, hrunU, hctrU, hhexU, hlenU, hdigestU⟩ := runs_hotp (E := E)
    (selected_of_cfg_eq halg hcfg1) (digitsLegal_of_cfg_eq hdigits hcfg1)
  obtain ⟨v, hrunV, -, hhexV, hlenV, hdigestV⟩ := runs_hotp (E := E)
    (selected_of_cfg_eq halg hcfg3) (digitsLegal_of_cfg_eq hdigits hcfg3)
  rw [hctr1] at hdigestU
  rw [hctr3] at hdigestV
  refine ⟨t, s1, u, s2, s3, v, hrunT, hrun1, hrunU, hrun2, hrun3, hrunV, hhexT, by rw [hhexU, h1]; rfl,
    hlenT, by rw [hlenU, h1]; rfl, by rw [hhexV, h3, h2], by rw [hlenV, h3]; rfl, ?digest,
    fun hnot => ⟨hfailT hnot, by rw [hctrU, hctr1]⟩⟩
  case digest =>
    rintro ⟨d, hd⟩
    obtain ⟨hT, herrT⟩ := hdigestT d hd
    obtain ⟨hU, herrU⟩ := hdigestU d hd
    obtain ⟨hV, herrV⟩ := hdigestV d hd
    have hTU : SameCodeRegs t u := sameCodeRegs_of_hexText _ _ (by rw [hU, h1, ← hT])
    have hTV : SameCodeRegs t v :=
      sameCodeRegs_of_hexText (hexencRegs s1.regs).hex 16#5 (by rw [hV, h3, h1, hT]; rfl)
    exact ⟨hTU, hTV, herrT, herrU, herrV⟩

end Sys2Proof.Proofs
end

section
/-! The interrupt line (60_exceptions.md rule R206): where DONE can rise, and what each host access makes
of the line. -/

namespace Sys2Proof.Proofs

open Sys2Proof.Machine Sys2Proof.Spec

/-! ### The line -/

theorem irq_eq_true_iff (s : State) : irq s = true ↔ s.ie = true ∧ s.status.done = true :=
  Bool.and_eq_true_iff

theorem irq_of_ie_clear {s : State} (hie : s.ie = false) : irq s = false := by simp [irq, hie]

theorem irq_of_done_clear {s : State} (hdone : s.status.done = false) : irq s = false := by
  simp [irq, hdone]

/-- A completion sets DONE, success or error, so that IE alone decides. -/
theorem irq_complete (c : Bool) (result : Except CmdError Regs) (s : State) :
    irq (complete c result s) = s.ie := by
  cases result with
  | ok r => exact Bool.and_true s.ie
  | error e => exact Bool.and_true s.ie

/-- An access error changes ACCERR and what a read returns, neither of which the line shows. -/
theorem irq_hostAccess_error {a : Access} {s : State} (hs : s.resetIn = false)
    (herr : IsAccessError a) : irq (hostAccess a s) = irq s := by
  cases a with
  | read w off => rw [hostAccess_read_error hs herr]; rfl
  | write w off v => rw [hostAccess_write_error hs herr]; rfl

/-! ### Where DONE can rise -/

theorem engineAnswers_status (s : State) : (engineAnswers s).status = s.status := by
  rcases engineAnswers_cases s with h | ⟨q, -, -, -, h⟩ <;> rw [h]

/-- The host can clear DONE but never set it (10_state.md rule R24). -/
theorem done_of_done_hostAccess {a : Access} {s : State} (hdone : (hostAccess a s).status.done = true) :
    s.status.done = true := by
  cases hs : s.resetIn with
  | true => rcases hostAccess_in_reset a s hs with h | h <;> rwa [h] at hdone
  | false =>
    rcases hostAccess_cases a s hs with h | h | ⟨r, h⟩ | ⟨v, -, -, h⟩ | ⟨v, -, -, h⟩ | ⟨v, -, h⟩ |
      ⟨w, -, h⟩ | ⟨w, -, -, h⟩ | ⟨r, v, -, -, -, -, -, -, h⟩ <;> rw [h] at hdone
    · exact hdone -- an access error, of a write
    · exact hdone -- an access error, of a read
    · exact hdone -- a read
    · cases hdone -- a reset by SRST
    · exact hdone -- a store of IE
    · exact (Bool.and_eq_true_iff.mp hdone).1 -- a clearing in STATUS
    · exact hdone -- a dropped write
    · cases hdone -- an acceptance
    · exact hdone -- a store

/-- The sequencer's move completes the running command, or leaves STATUS as it is. -/
theorem sequencerStep_status_or_completes {s t : State} (h : sequencerStep s = .next t) :
    t.status = s.status ∨ s.seq ≠ .idle ∧ t.seq = .idle := by
  rcases sequencerStep_cases s with ⟨-, hn⟩ | ⟨w, i, -, hrun, -, hexec⟩ | ⟨w, why, -, hrun, -, herr⟩
  · cases hn.symm.trans h
    exact .inl rfl
  · obtain ⟨u, hu, hcases⟩ := exec_cases i s
    cases (hexec.trans hu).symm.trans h
    rcases hcases with ⟨r, -, rfl⟩ | ⟨e, rfl⟩ | ⟨q, -, -, rfl⟩
    · exact .inr ⟨by simp [hrun], rfl⟩
    · exact .inr ⟨by simp [hrun], rfl⟩
    · exact .inl rfl
  · cases herr.symm.trans h
    exact .inr ⟨by simp [hrun], rfl⟩

/-- DONE rises only by a completion: every other move keeps STATUS, clears bits of it, or resets it. -/
theorem completes_of_done_rises {s t : State} (h : step s = .next t) (hs : s.status.done = false)
    (ht : t.status.done = true) : s.seq ≠ .idle ∧ t.seq = .idle := by
  obtain ⟨es, -, hmove⟩ := step_cases s t h
  rcases hmove with rfl | ⟨-, hseq⟩ | ⟨-, rfl⟩ | ⟨a, -, rfl⟩ | ⟨d, l, -, rfl⟩ | ⟨-, rfl⟩ | ⟨-, -, rfl⟩
  · cases hs.symm.trans ht -- a move with no effect
  · -- the sequencer's move
    rcases sequencerStep_status_or_completes hseq with hstatus | hcompletes
    · rw [hstatus] at ht
      cases hs.symm.trans ht
    · exact hcompletes
  · -- an answer of the engine
    rw [engineAnswers_status] at ht
    cases hs.symm.trans ht
  · -- a host access
    have hdone := done_of_done_hostAccess ht
    cases hs.symm.trans hdone
  · cases hs.symm.trans ht -- a WAIT
  · cases ht -- the reset input asserted
  · cases ht -- the reset input released

/-! ### The statement -/

/-- Settles O24: the line is IE and DONE; DONE rises only by a completion (`completes_of_done_rises`), and
each host access is rewritten to its effect, which clears IE or DONE or leaves both. -/
theorem interruptLine : Obligations.InterruptLine := by
  unfold Obligations.InterruptLine
  intro s
  refine ⟨irq_eq_true_iff s, fun c r => irq_complete c r s, fun t => completes_of_done_rises,
    fun hs => ⟨fun v hv => ?clear, fun w hidle => ?accept, fun v hv => ?ctrl,
      fun a => irq_hostAccess_error hs, fun w r v hrun hr hctrl hstatus => ?dropped⟩, rfl⟩
  case clear =>
    rw [hostAccess_wr_status v hs]
    exact irq_of_done_clear (by simp [hv])
  case accept =>
    rw [hostAccess_wr_cmd w hs hidle]
    exact irq_of_done_clear rfl
  case ctrl =>
    rw [hostAccess_wr_ctrl v hs]
    split
    case isTrue => rfl
    case isFalse hsrst => exact irq_of_ie_clear (hv.resolve_right hsrst)
  case dropped =>
    rw [hostAccess_wr_dropped v hs hr hctrl hstatus (by simp [hrun])]
    rfl

end Sys2Proof.Proofs
end

section
/-! The two resets (70_reset_and_hazards.md rules R240 and R241): what a reset leaves, what moves while the
reset input is asserted, and what becomes of an answer nobody waits for. -/

namespace Sys2Proof.Proofs

open Sys2Proof.Machine Sys2Proof.Spec

/-! ### Taking a move off the schedule -/

theorem step_withSchedule (s : State) (e : Event) (es : List Event) :
    step { s with schedule := e :: es } = eventStep e { s with schedule := es } := rfl

/-! ### An answer that nobody waits for -/

/-- With no request outstanding an answer is discarded (41_truncate.md rule R121). -/
theorem engineStep_of_no_request {s : State} (hreq : s.engReq = false) : engineStep s = s := by
  unfold engineStep
  split
  case isTrue => rfl
  case isFalse =>
    rcases engineAnswers_cases s with h | ⟨q, hasked, -, -, -⟩
    · exact h
    · cases hreq.symm.trans hasked

/-! ### While the reset input is asserted -/

section
variable {s : State} (hs : s.resetIn = true)
include hs

theorem hostAccess_read_in_reset (w : Width) (off : BitVec 8) :
    hostAccess (.read w off) s = { s with readData := 0x00000000#32 } := if_pos hs

theorem hostAccess_write_in_reset (w : Width) (off : BitVec 8) (v : Word) :
    hostAccess (.write w off v) s = s := if_pos hs

theorem engineStep_in_reset : engineStep s = s := if_pos hs

theorem sequencerStep_in_reset : sequencerStep s = .next s := if_pos hs

theorem agentStep_in_reset : agentStep s = .next s := by
  rcases agentStep_cases s with ⟨hout, -, -⟩ | h
  · cases hs.symm.trans hout
  · rw [h, sequencerStep_in_reset hs]

theorem releaseReset_of_asserted : releaseReset s = resetBlock { s with resetIn := false } := if_pos hs

end

/-! ### The reset states -/

/-- Asserting is `resetBlock` with the input already raised, so that the lemmas about `resetBlock` speak of it. -/
theorem assertReset_eq_resetBlock (s : State) : assertReset s = resetBlock { s with resetIn := true } := rfl

theorem isReset_assertReset (s : State) : IsReset (assertReset s) := by
  rw [assertReset_eq_resetBlock]
  exact isReset_resetBlock _

/-- A reset leaves the reset input and the model's own fields. -/
theorem sameOutside_resetBlock (s : State) : SameOutside s (resetBlock s) where
  resetIn := resetBlock_resetIn s
  schedule := resetBlock_schedule s
  readData := resetBlock_readData s

/-! ### The statements -/

/-- Settles O21: asserted, every agent's move is its `_in_reset` lemma; released, the block is `resetBlock` of
a state outside reset, where the first accesses are those of any idle block. -/
theorem hardwareResetHoldsAndReleases : Obligations.HardwareResetHoldsAndReleases := by
  unfold Obligations.HardwareResetHoldsAndReleases
  intro s es
  refine ⟨⟨assertReset { s with schedule := es }, step_withSchedule s .assertReset es, ?asserted⟩,
    fun hs => ⟨resetBlock { s with resetIn := false, schedule := es }, ?release, ?released⟩⟩
  case asserted =>
    have hin : (assertReset { s with schedule := es }).resetIn = true := assertReset_resetIn _
    exact ⟨isReset_assertReset _, hin, assertReset_schedule _, hostAccess_read_in_reset hin,
      hostAccess_write_in_reset hin, engineStep_in_reset hin, sequencerStep_in_reset hin,
      agentStep_in_reset hin⟩
  case release =>
    have hin : ({ s with schedule := es } : State).resetIn = true := hs
    rw [step_withSchedule, eventStep, releaseReset_of_asserted hin]
  case released =>
    have hreset := isReset_resetBlock { s with resetIn := false, schedule := es }
    have hout : (resetBlock { s with resetIn := false, schedule := es }).resetIn = false := resetBlock_resetIn _
    refine ⟨hreset, hout, resetBlock_schedule _, fun w => ?accepted, fun r => ?read⟩
    case accepted => rw [hostAccess_wr_cmd w hout hreset.seq, accept_seq]
    case read =>
      rw [hostAccess_rd r hout]
      exact hreset.regs r

/-- Settles O20: the write is `resetBlock`, busy or not (`hostAccess_wr_ctrl`); it leaves no request
outstanding, so that a later answer finds nobody waiting. -/
theorem softResetRestoresResetState : Obligations.SoftResetRestoresResetState := by
  unfold Obligations.SoftResetRestoresResetState
  rintro s t v hs hsrst rfl
  rw [hostAccess_wr_ctrl v hs, if_pos hsrst]
  refine ⟨isReset_resetBlock s, sameOutside_resetBlock s, fun es => ?engine,
    fun es => step_withSchedule _ .lateAnswer es⟩
  case engine =>
    have hreq : ({ resetBlock s with schedule := es } : State).engReq = false := resetBlock_engReq s
    rw [step_withSchedule, eventStep, engineStep_of_no_request hreq]

end Sys2Proof.Proofs
end

section
/-! Command words both ways (30_encoding.md rules R80 to R82), the fields of STATUS and of the other registers
(10_state.md sections 3 to 5), legal accesses (20_memory.md rule R63) and the window (rule R60). -/

namespace Sys2Proof.Proofs

open Sys2Proof.Machine Sys2Proof.Spec

/-! ### A word is its two fields -/

/-- RSVD above OP is the whole word (rule R80). -/
theorem rsvd_append_op (w : Word) : w.extractLsb' 8 24 ++ w.extractLsb' 0 8 = w :=
  (BitVec.extractLsb'_append_extractLsb'_eq_extractLsb' (start₁ := 0) (len₁ := 8) rfl).trans
    BitVec.extractLsb'_eq_self

/-- Settles O3: `decode_encode` one way; the other way RSVD and OP of the word are those of the encoding, and
they are the whole word. -/
theorem decodeInvertsEncode : Obligations.DecodeInvertsEncode := by
  unfold Obligations.DecodeInvertsEncode
  intro w i
  constructor
  · intro hd
    obtain ⟨hrsvd, hop⟩ := decode_eq_ok_iff.mp hd
    rw [encode, ← rsvd_append_op w, hrsvd, BitVec.eq_of_toNat_eq hop]
  · rintro rfl
    exact decode_encode i

/-! ### Fields -/

theorem getLsbD_readReg_status (s : State) (i : Nat) : (readReg s .status).getLsbD i =
    if i = 0 then s.status.busy else if i = 1 then s.status.done else if i = 2 then s.status.err
    else if 4 ≤ i ∧ i < 8 then s.status.errCode.getLsbD (i - 4)
    else if i = 8 then s.status.accErr else if i = 9 then s.status.busyErr else false :=
  getLsbD_statusWord s.status i

/-- The bits of OFFUSED as read (10_state.md rule R39). -/
theorem getLsbD_readReg_offused (s : State) (i : Nat) : (readReg s .offused).getLsbD i =
    if i < 6 then s.regs.off.getLsbD i else if i = 8 then s.regs.dyn else false := by
  change BitVec.getLsbD (w := 23 + 1 + 2 + 6)
    (0#23 ++ BitVec.ofBool s.regs.dyn ++ 0#2 ++ s.regs.off) i = _
  simp only [BitVec.getLsbD_append, BitVec.getLsbD_ofBool, BitVec.getLsbD_zero]
  grind

/-- Zeros above a field do not change its value. -/
theorem toNat_zero_append {m n : Nat} (x : BitVec n) : (0#m ++ x).toNat = x.toNat := by
  simp

theorem toNat_errInfoWord (e : ErrInfo) : (errInfoWord e).toNat = 256 * e.idx.toNat + e.sub.toNat := by
  rw [errInfoWord, toNat_append_eq, toNat_zero_append, Nat.mul_comm]
  rfl

theorem hostAccess_write_narrow {w : Width} {s : State} (off : BitVec 8) (v : Word) (hw : w ≠ .w32)
    (hs : s.resetIn = false) : hostAccess (.write w off v) s = accessError s := by
  cases w with
  | w32 => exact absurd rfl hw
  | _ => simp [hostAccess, hostWrite, hs, addressed]

/-- Settles O14: the fields of CFG and OFFUSED bit by bit (`getLsbD_cfgWord`, `getLsbD_readReg_offused`), the
others as numbers below zeros. -/
theorem fieldsStandAtTheirBits : Obligations.FieldsStandAtTheirBits := by
  unfold Obligations.FieldsStandAtTheirBits
  intro s
  have hcfg (i : Nat) := getLsbD_cfgWord s.regs.cfg i
  have hoff (i : Nat) := getLsbD_readReg_offused s i
  refine ⟨toNat_errInfoWord s.errInfo, ?digits, hcfg 8, ?alg, ?cfgReserved, toNat_zero_append _,
    toNat_zero_append _, ?off, hoff 8, ?offReserved, toNat_zero_append _, toNat_zero_append _⟩
  case digits =>
    refine BitVec.eq_of_getLsbD_eq fun i hi => ?_
    simp only [readReg, BitVec.getLsbD_extractLsb', hcfg]
    grind
  case alg =>
    refine BitVec.eq_of_getLsbD_eq fun i hi => ?_
    simp only [readReg, BitVec.getLsbD_extractLsb', hcfg]
    grind
  case off =>
    refine BitVec.eq_of_getLsbD_eq fun i hi => ?_
    simp only [BitVec.getLsbD_extractLsb', hoff]
    grind
  case cfgReserved =>
    refine BitVec.eq_of_getLsbD_eq fun i hi => ?_
    simp only [readReg, BitVec.getLsbD_and, hcfg]
    interval_cases i <;> simp
  case offReserved =>
    refine BitVec.eq_of_getLsbD_eq fun i hi => ?_
    simp only [BitVec.getLsbD_and, hoff]
    interval_cases i <;> simp

/-- Settles O17: the bits are `getLsbD_readReg_status`; a 32-bit write is `writeStatus`, a narrower one
addresses no register. -/
theorem statusRegister : Obligations.StatusRegister := by
  unfold Obligations.StatusRegister
  intro s
  have hbit := getLsbD_readReg_status s
  refine ⟨hbit 0, hbit 1, hbit 2, hbit 3, ?errCode, hbit 8, hbit 9, ?reserved,
    fun hs v => hostAccess_wr_status v hs, fun hs w off v hw _ => hostAccess_write_narrow off v hw hs⟩
  case errCode =>
    refine BitVec.eq_of_getLsbD_eq fun i hi => ?_
    simp only [BitVec.getLsbD_extractLsb', hbit]
    grind
  case reserved =>
    refine BitVec.eq_of_getLsbD_eq fun i hi => ?_
    simp only [BitVec.getLsbD_extractLsb', hbit, BitVec.getLsbD_zero]
    grind

/-! ### Legal accesses, and the window -/

/-- Settles O12: a write that stores is `storeReg` on the register file and nothing else, whose reads are
`readReg_storeReg_same` and `readReg_storeReg_ne`. -/
theorem legalAccessesReadAndStore : Obligations.LegalAccessesReadAndStore := by
  unfold Obligations.LegalAccessesReadAndStore
  refine fun s hs => ⟨fun r => hostAccess_rd r hs, fun r v hseq hr => ?_⟩
  obtain ⟨hro, hctrl, hstatus, hcmd⟩ := (hostStores_iff r).mp hr
  rw [hostAccess_wr_stored v hs hro hctrl hstatus hcmd hseq]
  exact ⟨readReg_storeReg_same s v hr, fun r' hr' => readReg_storeReg_ne s r r' v hr', ⟨rfl, rfl, rfl⟩,
    ⟨rfl, rfl, rfl⟩⟩

/-- Settles O51: the bounds of the window, 256 addresses from an aligned base. -/
theorem windowAddresses : Obligations.WindowAddresses := by
  unfold Obligations.WindowAddresses
  refine ⟨Nat.mul_mod_right 256 _, fun off => ?inside, fun addr => ?outside⟩
  case inside =>
    have hoff := off.isLt
    rw [windowOffset, if_pos (by omega), Nat.add_sub_cancel_left, BitVec.ofNat_toNat, BitVec.setWidth_eq]
  case outside =>
    rw [windowOffset, ite_eq_right_iff]
    simp only [reduceCtorEq, imp_false]
    omega

end Sys2Proof.Proofs
end

section
/-! The invariant (Safety.lean): what a move of each agent must keep, the success registers of each command,
and the two statements about it. -/

namespace Sys2Proof.Proofs

open Sys2Proof.Machine Sys2Proof.Spec

/-! ### The registers a success leaves -/

theorem algDigits_of_hotpRequest {r : Regs} {q : EngineRequest} (h : hotpRequest r = .ok q) :
    ∃ a, q = { alg := a, msg := be64 r.ctr.toNat } ∧ r.cfg.digits.toNat ≤ 31 := by
  unfold hotpRequest at h
  cases hc : checkAlgDigits r with
  | error e => simp [hc] at h
  | ok ad =>
    obtain ⟨a, d⟩ := ad
    obtain ⟨-, -, rfl, -, hle⟩ := checkAlgDigits_ok hc
    simp only [hc, Except.ok.injEq] at h
    exact ⟨a, h.symm, hle⟩

theorem algDigitsTime_of_totpRequest {r : Regs} {q : EngineRequest} (h : totpRequest r = .ok q) :
    ∃ (a : Alg) (t0 : Nat), r.time.toInt = t0 ∧
      q = { alg := a, msg := be64 (stepNumber t0 r.period.toNat) } ∧ r.cfg.digits.toNat ≤ 31 := by
  unfold totpRequest at h
  cases hc : checkAlgDigits r with
  | error e => simp [hc] at h
  | ok ad =>
    obtain ⟨a, d⟩ := ad
    obtain ⟨-, -, rfl, -, hle⟩ := checkAlgDigits_ok hc
    rcases checkTime_cases r with ⟨-, ht⟩ | ⟨t0, htime, -, ht⟩
    · simp [hc, ht] at h
    · simp only [hc, ht, Except.ok.injEq] at h
      exact ⟨a, t0, htime, h.symm, hle⟩

section
variable {s : State} {r : Regs}

theorem successRegs_hmac (h : SuccessRegs .hmac s r) : ∃ d, r = { s.regs with digest := d } := by
  obtain ⟨q, a, -, -, hr⟩ := h
  unfold hmacResult at hr
  cases hd : digestOfAnswer q.alg a with
  | error e => simp [hd] at hr
  | ok d => exact ⟨d, by simpa [hd] using hr.symm⟩

theorem successRegs_trunc (h : SuccessRegs .trunc s r) : s.regs.cfg.digits.toNat ≤ 31 ∧
    ∃ a, r = truncRegs s.regs a s.regs.cfg.digits.toNat := by
  have hr : truncResult s.regs = .ok r := h
  unfold truncResult at hr
  cases hc : checkAlgDigits s.regs with
  | error e => simp [hc] at hr
  | ok ad =>
    obtain ⟨a, d⟩ := ad
    obtain ⟨-, -, rfl, -, hle⟩ := checkAlgDigits_ok hc
    simp only [hc, Except.ok.injEq] at hr
    exact ⟨hle, a, hr.symm⟩

theorem successRegs_luhn (h : SuccessRegs .luhn s r) :
    ∃ num d, r = { s.regs with lres := BitVec.ofNat 4 (luhn num d) } := by
  have hr : luhnResult s.regs = .ok r := h
  unfold luhnResult at hr
  cases hc : checkDigits s.regs with
  | error e => simp [hc] at hr
  | ok d => exact ⟨s.regs.lnum.toNat, d, by simpa [hc] using hr.symm⟩

theorem successRegs_tstep (h : SuccessRegs .tstep s r) : ∃ v, r = { s.regs with ctr := v } := by
  have hr : tstepResult s.regs = .ok r := h
  unfold tstepResult at hr
  cases hc : checkTime s.regs with
  | error e => simp [hc] at hr
  | ok t => exact ⟨_, by simpa [hc] using hr.symm⟩

theorem successRegs_hexdec (h : SuccessRegs .hexdec s r) : ∃ v, r = { s.regs with ctr := v } := by
  have hr : hexdecResult s.regs = .ok r := h
  unfold hexdecResult at hr
  split at hr
  · cases hr
  · split at hr
    · cases hr
    · split at hr
      · cases hr
      · exact ⟨_, (Except.ok.inj hr).symm⟩

/-- A success of HOTP had a digest for its answer (rule R160). -/
theorem successRegs_hotp (h : SuccessRegs .hotp s r) : s.regs.cfg.digits.toNat ≤ 31 ∧
    ∃ a d, r = hotpRegs s.regs a d := by
  obtain ⟨q, ans, hq, -, hr⟩ := h
  obtain ⟨a, rfl, hdigits⟩ := algDigits_of_hotpRequest hq
  by_cases hans : ∃ d, ans = .digest d
  case pos =>
    obtain ⟨d, rfl⟩ := hans
    exact ⟨hdigits, a, d, (Except.ok.inj hr).symm⟩
  case neg =>
    obtain ⟨e, he⟩ := hotpResult_of_not_digest hans
    cases he.symm.trans hr

/-- A success of TOTP is one of HOTP on the registers TSTEP leaves (rule R180). -/
theorem successRegs_totp (h : SuccessRegs .totp s r) : s.regs.cfg.digits.toNat ≤ 31 ∧
    ∃ t0 a d, r = hotpRegs (tstepRegs s.regs t0) a d := by
  obtain ⟨q, ans, hq, -, hr⟩ := h
  obtain ⟨a, t0, htime, rfl, hdigits⟩ := algDigitsTime_of_totpRequest hq
  by_cases hans : ∃ d, ans = .digest d
  case pos =>
    obtain ⟨d, rfl⟩ := hans
    rw [totpResult_digest htime] at hr
    exact ⟨hdigits, t0, a, d, (Except.ok.inj hr).symm⟩
  case neg =>
    obtain ⟨e, he⟩ := totpResult_of_not_digest hans
    cases he.symm.trans hr

end

/-! ### The code and result registers -/

/-- The part of the invariant that speaks of the register file. -/
structure RegsConsistent (r : Regs) : Prop where
  code : CodeConsistent r
  results : ResultsInRange r

/-- The registers that part reads. -/
def resultFields (r : Regs) : DWord × BitVec 6 × Bool × BitVec 4 × BitVec 6 × Vector Byte 32 :=
  (r.otp, r.off, r.dyn, r.lres, r.codeLen, r.code)

theorem RegsConsistent.of_resultFields_eq {r r' : Regs} (h : RegsConsistent r)
    (heq : resultFields r' = resultFields r) : RegsConsistent r' := by
  obtain ⟨⟨length, digits, padding, fits⟩, ⟨otp, off, dyn, lres⟩⟩ := h
  simp only [resultFields, Prod.mk.injEq] at heq
  obtain ⟨hotp, hoff, hdyn, hlres, hlen, hcode⟩ := heq
  rw [← hlen] at length digits padding fits
  rw [← hcode] at digits padding
  rw [← hotp] at digits fits otp
  exact ⟨⟨length, digits, padding, fits⟩, ⟨otp, hoff ▸ off, hoff ▸ hdyn ▸ dyn, hlres ▸ lres⟩⟩

/-- A check digit put into LRES (rule R140). -/
theorem RegsConsistent.withLres {r : Regs} (h : RegsConsistent r) (num d : Nat) :
    RegsConsistent { r with lres := BitVec.ofNat 4 (luhn num d) } where
  code := ⟨h.code.length, h.code.digits, h.code.padding, h.code.fits⟩
  results := ⟨h.results.otp, h.results.off, h.results.dyn, by
    rw [toNat_ofNat_luhn]
    exact luhn_le_nine num d⟩

theorem codeConsistent_of_isCodeText {r : Regs} {len : Nat} (h : IsCodeText r r.otp.toNat len)
    (hlen : len ≤ 32) (hfits : r.otp.toNat < 10 ^ len) : CodeConsistent r := by
  obtain ⟨rfl, htext, hrest⟩ := h
  exact ⟨hlen, htext, hrest, fun _ => hfits⟩

/-- A code of at most 31 digits and a check digit, with its offset (rules R130 to R134). -/
theorem regsConsistent_storeCode {r : Regs} (h : RegsConsistent r) (bin : BitVec 31) {off : Nat} {dyn : Bool}
    {otp len : Nat} (hlen : len ≤ 32) (hotp : otp < 10 * 2 ^ 31) (hfits : otp < 10 ^ len) (hoff : off ≤ 59)
    (hdyn : dyn = true → off ≤ 15) : RegsConsistent (storeCode r bin off dyn otp len) := by
  have hotp64 : otp < 2 ^ 64 := hotp.trans (by decide)
  have hotpNat := toNat_otp_storeCode r bin off dyn otp len hotp64
  have hoffNat : (BitVec.ofNat 6 off).toNat = off := Nat.mod_eq_of_lt (by omega)
  exact {
    code := codeConsistent_of_isCodeText (isCodeText_storeCode r bin off dyn hotp64 hlen) hlen
      (hotpNat.trans_lt hfits)
    results := ⟨hotpNat.trans_lt hotp, hoffNat.trans_le hoff, fun h => hoffNat.trans_le (hdyn h),
      h.results.lres⟩ }

/-- CODE with no character is consistent with any OTP. -/
theorem regsConsistent_clearCode {r : Regs} (h : RegsConsistent r) : RegsConsistent (clearCode r) where
  code := ⟨Nat.zero_le _, fun _ hk => absurd hk (Nat.not_lt_zero _),
    fun k _ => Vector.getElem_replicate k.isLt, fun h0 => absurd rfl h0⟩
  results := ⟨h.results.otp, h.results.off, h.results.dyn, h.results.lres⟩

theorem regsConsistent_reset : RegsConsistent Regs.reset where
  code := ⟨Nat.zero_le _, fun _ hk => absurd hk (Nat.not_lt_zero _),
    fun k _ => Vector.getElem_replicate k.isLt, fun h0 => absurd rfl h0⟩
  results := ⟨by decide, by decide, by decide, by decide⟩

theorem regsConsistent_truncRegs {r : Regs} (h : RegsConsistent r) (a : Alg) {d : Nat} (hd : d ≤ 31) :
    RegsConsistent (truncRegs r a d) := by
  obtain ⟨hoff, hdyn⟩ : (truncOffset r a).1 + 3 ≤ digestLen a - 2 ∧
      ((truncOffset r a).2 = true → (truncOffset r a).1 + 3 ≤ 18) := selectOffset_add_three_le _ _ a
  have hlen := (digestLen_bounds a).2
  have hred := reduced_lt r a d
  have hcheck := reduced_with_check_le r a d
  have hstore {otp len : Nat} (hlen : len ≤ 32) (hotp : otp < 10 * 2 ^ 31) (hfits : otp < 10 ^ len) :
      RegsConsistent (truncStore r a otp len) :=
    regsConsistent_storeCode h _ hlen hotp hfits (by omega) fun hd => by have := hdyn hd; omega
  cases hchk : r.cfg.chk with
  | false =>
    rw [truncRegs_of_not_chk hchk]
    exact hstore (by omega) (by omega) (reduced_lt_pow r a d)
  | true =>
    rw [truncRegs_of_chk hchk]
    exact (hstore (by omega) (by omega) (reduced_with_check_lt_pow r a d)).withLres _ d

theorem regsConsistent_hotpRegs {r : Regs} (h : RegsConsistent r) (a : Alg) (d : Vector Byte 64)
    (hdigits : r.cfg.digits.toNat ≤ 31) : RegsConsistent (hotpRegs r a d) := by
  have hbase : RegsConsistent { r with msg := be64 r.ctr.toNat, digest := zeroFill (digestLen a) d } :=
    h.of_resultFields_eq rfl
  have hnibble : hotpOffset a d ≤ 15 := Nat.le_of_lt_succ (Nat.mod_lt _ (by decide))
  have hred (bin : BitVec 31) : bin.toNat % 10 ^ r.cfg.digits.toNat < 10 * 2 ^ 31 :=
    (Nat.mod_le _ _).trans_lt (bin.isLt.trans (by decide))
  rw [hotpRegs, generatorRegs, selectOffset_zeroFill]
  exact regsConsistent_storeCode hbase _ (by omega) (hred _) (Nat.mod_lt _ (Nat.pow_pos (by decide))) (by omega)
    fun _ => hnibble

theorem regsConsistent_storeReg {r : Regs} (h : RegsConsistent r) (reg : Reg) (v : Word) :
    RegsConsistent (storeReg r reg v) :=
  h.of_resultFields_eq (by cases reg <;> simp only [storeReg, resultFields])

/-- A success of a command keeps it: TRUNC, HOTP and TOTP store a code, LUHN a check digit, and no other
command writes a result register (10_state.md rule R48). -/
theorem RegsConsistent.of_successRegs {i : Instr} {s : State} {r : Regs} (h : RegsConsistent s.regs)
    (hr : SuccessRegs i s r) : RegsConsistent r := by
  cases i with
  | nop =>
    obtain rfl : r = s.regs := hr
    exact h
  | mfenc =>
    obtain rfl : r = mfencRegs s.regs := hr
    exact h.of_resultFields_eq rfl
  | hexenc =>
    obtain rfl : r = hexencRegs s.regs := hr
    exact h.of_resultFields_eq rfl
  | hmac =>
    obtain ⟨d, rfl⟩ := successRegs_hmac hr
    exact h.of_resultFields_eq rfl
  | tstep =>
    obtain ⟨v, rfl⟩ := successRegs_tstep hr
    exact h.of_resultFields_eq rfl
  | hexdec =>
    obtain ⟨v, rfl⟩ := successRegs_hexdec hr
    exact h.of_resultFields_eq rfl
  | luhn =>
    obtain ⟨num, d, rfl⟩ := successRegs_luhn hr
    exact h.withLres num d
  | trunc =>
    obtain ⟨hdigits, a, rfl⟩ := successRegs_trunc hr
    exact regsConsistent_truncRegs h a hdigits
  | hotp =>
    obtain ⟨hdigits, a, d, rfl⟩ := successRegs_hotp hr
    exact regsConsistent_hotpRegs h a d hdigits
  | totp =>
    obtain ⟨hdigits, t0, a, d, rfl⟩ := successRegs_totp hr
    have hstep : RegsConsistent (tstepRegs s.regs t0) := h.of_resultFields_eq rfl
    exact regsConsistent_hotpRegs hstep a d hdigits

/-! ### What keeps the invariant -/

theorem resetHeld_of_released {s : State} (h : s.resetIn = false) : ResetHeld s := fun hs => by
  cases h.symm.trans hs

/-- An idle block has no request to answer. -/
theorem no_request_of_idle {s : State} (h : Inv s) (hseq : s.seq = .idle) :
    s.engReq = false ∧ s.engResp = none := by
  have hnone : runningRequest s = none := by simp [runningRequest, hseq]
  have hreq : s.engReq = false := by
    by_contra hne
    have hsome := h.engine.request (Bool.eq_true_of_not_eq_false hne)
    simp [hnone] at hsome
  refine ⟨hreq, Option.eq_none_iff_forall_ne_some.mpr fun a ha => ?_⟩
  have hasked := (h.engine.answer a ha).1
  cases hreq.symm.trans hasked

/-- A stored or awaited answer is to the request of the running command; with neither, nothing is claimed. -/
theorem engineConsistent_of_no_request {s : State} (hreq : s.engReq = false) (hresp : s.engResp = none) :
    EngineConsistent s where
  request h := by cases hreq.symm.trans h
  answer a h := by cases hresp.symm.trans h

/-- A reset leaves the invariant, whatever stood before and whether or not the input is asserted. -/
theorem inv_resetBlock (s : State) : Inv (resetBlock s) where
  busy := ⟨by simp [Status.reset], fun w h => (by cases h), by simp [Status.reset]⟩
  error := .inl ⟨rfl, rfl, rfl⟩
  engine := engineConsistent_of_no_request rfl rfl
  code := regsConsistent_reset.code
  results := regsConsistent_reset.results
  held hs := by
    have hin : s.resetIn = true := hs
    simp [resetBlock, hin]

/-- The invariant does not read the model's own two fields. -/
theorem inv_withModelFields {s : State} (h : Inv s) (es : List Event) (d : Word) :
    Inv { s with schedule := es, readData := d } where
  busy := ⟨h.busy.busy_iff, h.busy.cmd_running, h.busy.busy_clear⟩
  error := h.error
  engine := ⟨h.engine.request, h.engine.answer⟩
  code := h.code
  results := h.results
  held hs := congrArg (fun u : State => { u with schedule := es, readData := d }) (h.held hs)

section
variable {s : State} (h : Inv s) (hs : s.resetIn = false)
include h hs

theorem inv_completeOk {r : Regs} (hr : RegsConsistent r) : Inv (completeOk r s) where
  busy := ⟨by simp, fun w hw => (by cases hw), fun hb => (by cases hb)⟩
  error := h.error
  engine := engineConsistent_of_no_request rfl rfl
  code := hr.code
  results := hr.results
  held := resetHeld_of_released hs

theorem inv_completeError (c : Bool) (e : CmdError) : Inv (completeError c e s) := by
  have hregs : RegsConsistent s.regs := ⟨h.code, h.results⟩
  have hcleared : RegsConsistent (completeError c e s).regs := by
    cases c with
    | false => exact hregs
    | true => exact regsConsistent_clearCode hregs
  exact {
    busy := ⟨by simp, fun w hw => (by cases hw), fun hb => (by cases hb)⟩
    error := .inr ⟨e, rfl, rfl, rfl⟩
    engine := engineConsistent_of_no_request rfl rfl
    code := hcleared.code
    results := hcleared.results
    held := resetHeld_of_released hs }

/-- A request is issued for the running command (rule R121). -/
theorem inv_request {q : EngineRequest} (hq : runningRequest s = some q) (hresp : s.engResp = none) :
    Inv { s with engReq := true } where
  busy := ⟨h.busy.busy_iff, h.busy.cmd_running, h.busy.busy_clear⟩
  error := h.error
  engine := ⟨fun _ => Option.isSome_of_mem hq, fun a ha => by cases hresp.symm.trans ha⟩
  code := h.code
  results := h.results
  held := resetHeld_of_released hs

theorem inv_engineAnswers : Inv (engineAnswers s) := by
  rcases engineAnswers_cases s with heq | ⟨q, hreq, -, hq, heq⟩ <;> rw [heq]
  · exact h
  · exact {
      busy := ⟨h.busy.busy_iff, h.busy.cmd_running, h.busy.busy_clear⟩
      error := h.error
      engine := ⟨h.engine.request, fun a ha => ⟨hreq, (congrArg (Option.map engineOf) hq).trans ha⟩⟩
      code := h.code
      results := h.results
      held := resetHeld_of_released hs }

theorem inv_accept (w : Word) (hseq : s.seq = .idle) : Inv (accept w s) := by
  obtain ⟨hreq, hresp⟩ := no_request_of_idle h hseq
  exact {
    busy := ⟨by simp, fun w' hw' => (Seq.running.inj hw'), fun _ => ⟨rfl, rfl⟩⟩
    error := .inl ⟨rfl, rfl, rfl⟩
    engine := engineConsistent_of_no_request hreq hresp
    code := h.code
    results := h.results
    held := resetHeld_of_released hs }

theorem inv_store (r : Reg) (v : Word) (hseq : s.seq = .idle) :
    Inv { s with regs := storeReg s.regs r v } := by
  obtain ⟨hreq, hresp⟩ := no_request_of_idle h hseq
  have hregs := regsConsistent_storeReg ⟨h.code, h.results⟩ r v
  exact {
    busy := ⟨h.busy.busy_iff, h.busy.cmd_running, h.busy.busy_clear⟩
    error := h.error
    engine := engineConsistent_of_no_request hreq hresp
    code := hregs.code
    results := hregs.results
    held := resetHeld_of_released hs }

/-- IE is in no clause, and of STATUS the clauses read BUSY, ERR and ERRCODE, and that DONE is not set while a
command runs. -/
theorem inv_withIeStatus (ie : Bool) {st : Status} (hbusy : st.busy = s.status.busy)
    (herr : st.err = s.status.err) (hcode : st.errCode = s.status.errCode) (hdone : s.status.done = false → st.done = false) :
    Inv { s with ie := ie, status := st } where
  busy := ⟨hbusy ▸ h.busy.busy_iff, h.busy.cmd_running, fun hb => by
    obtain ⟨hd, he⟩ := h.busy.busy_clear (hbusy ▸ hb)
    exact ⟨hdone hd, herr.trans he⟩⟩
  error := by
    have herror := h.error
    unfold ErrorReported at herror ⊢
    rwa [← herr, ← hcode] at herror
  engine := ⟨h.engine.request, h.engine.answer⟩
  code := h.code
  results := h.results
  held := resetHeld_of_released hs

end

/-! ### Each agent's move keeps the invariant -/

theorem inv_exec {i : Instr} {s t : State} (h : Inv s) (hs : s.resetIn = false)
    (hreq : runningRequest s = requestOf i s.regs) (hexec : exec i s = .next t) : Inv t := by
  obtain ⟨u, hu, hcases⟩ := exec_cases i s
  cases hu.symm.trans hexec
  rcases hcases with ⟨r, hr, rfl⟩ | ⟨e, rfl⟩ | ⟨q, hq, hresp, rfl⟩
  · exact inv_completeOk h hs (RegsConsistent.of_successRegs ⟨h.code, h.results⟩ hr)
  · exact inv_completeError h hs _ e
  · exact inv_request h hs (hreq.trans hq) hresp

theorem inv_sequencerStep {s t : State} (h : Inv s) (hstep : sequencerStep s = .next t) : Inv t := by
  rcases sequencerStep_cases s with ⟨-, hn⟩ | ⟨w, i, hs, hrun, hd, hexec⟩ | ⟨w, why, hs, -, -, herr⟩
  · cases hn.symm.trans hstep
    exact h
  · exact inv_exec h hs (runningRequest_running hrun hd) (hexec.symm.trans hstep)
  · cases herr.symm.trans hstep
    exact inv_completeError h hs _ _

theorem inv_hostAccess {s : State} (h : Inv s) (a : Access) : Inv (hostAccess a s) := by
  cases hs : s.resetIn with
  | true =>
    rcases hostAccess_in_reset a s hs with heq | heq <;> rw [heq]
    · exact h
    · exact inv_withModelFields h s.schedule _
  | false =>
    have haccErr : Inv (accessError s) := inv_withIeStatus h hs s.ie rfl rfl rfl id
    rcases hostAccess_cases a s hs with heq | heq | ⟨r, heq⟩ | ⟨v, -, -, heq⟩ | ⟨v, -, -, heq⟩ | ⟨v, -, heq⟩ |
      ⟨w, -, heq⟩ | ⟨v, -, hseq, heq⟩ | ⟨r, v, -, hseq, -, -, -, -, heq⟩ <;> rw [heq]
    · exact haccErr -- an access error, of a write
    · exact inv_withModelFields haccErr s.schedule _ -- an access error, of a read
    · exact inv_withModelFields h s.schedule _ -- a read
    · exact inv_resetBlock s -- a reset by SRST
    · exact inv_withIeStatus h hs _ rfl rfl rfl id -- a store of IE
    · -- a clearing in STATUS
      exact inv_withIeStatus h hs s.ie rfl rfl rfl fun hdone => by simp [hdone]
    · exact inv_withIeStatus h hs s.ie rfl rfl rfl id -- a dropped write
    · exact inv_accept h hs v hseq -- an acceptance
    · exact inv_store h hs r v hseq -- a store

theorem inv_step {s t : State} (h : Inv s) (hstep : step s = .next t) : Inv t := by
  have htaken (es : List Event) : Inv { s with schedule := es } := inv_withModelFields h es s.readData
  obtain ⟨es, -, hmove⟩ := step_cases s t hstep
  rcases hmove with rfl | ⟨-, hseq⟩ | ⟨hs, rfl⟩ | ⟨a, -, rfl⟩ | ⟨d, l, -, rfl⟩ | ⟨-, rfl⟩ | ⟨-, -, rfl⟩
  · exact htaken es -- a move with no effect
  · exact inv_sequencerStep (htaken es) hseq
  · exact inv_engineAnswers (htaken es) hs
  · exact inv_hostAccess (htaken es) a
  · exact inv_withModelFields h l d -- a WAIT
  · exact inv_resetBlock { s with schedule := es, resetIn := true } -- the reset input asserted
  · exact inv_resetBlock { s with resetIn := false, schedule := es } -- the reset input released

/-! ### The statements -/

/-- Settles O54: by the kind of move (`inv_step`), each of which rewrites the state by an operation that keeps
the invariant. -/
theorem everyStepKeepsInvariant : Obligations.EveryStepKeepsInvariant := by
  unfold Obligations.EveryStepKeepsInvariant
  exact fun s t h hstep => inv_step h hstep

/-- Settles O53: resetting the block in `State.reset` changes nothing. -/
theorem resetMeetsInvariant : Obligations.ResetMeetsInvariant := by
  unfold Obligations.ResetMeetsInvariant
  exact inv_resetBlock State.reset

/-- Settles O23: the rows are those of the ten causes, of which `hexChar` alone has an index. -/
theorem onlyTabledErrorCodesAppear : Obligations.OnlyTabledErrorCodesAppear := by
  unfold Obligations.OnlyTabledErrorCodesAppear
  intro s h
  rcases h.error with ⟨herr, hcode, hinfo⟩ | ⟨e, herr, hcode, hinfo⟩ <;> rw [herr, hcode, hinfo]
  case inl => decide
  case inr =>
    cases e with
    | hexChar k => clear hcode hinfo; revert k; decide
    | illegal why => cases why <;> decide
    | _ => decide

end Sys2Proof.Proofs
end

section
/-! The moves of the sequencer, the engine and the agents (40_command.md, 41_truncate.md rule R121): every step
goes on, an accepted command runs, waits for its answer and finishes in one step. -/

namespace Sys2Proof.Proofs

open Sys2Proof.Machine Sys2Proof.Spec

/-! ### Every move goes on -/

theorem sequencerStep_next (s : State) : ∃ t, sequencerStep s = .next t := by
  rcases sequencerStep_cases s with ⟨-, h⟩ | ⟨w, i, -, -, -, h⟩ | ⟨w, why, -, -, -, h⟩
  · exact ⟨_, h⟩
  · obtain ⟨t, ht, -⟩ := exec_cases i s
    exact ⟨t, h.trans ht⟩
  · exact ⟨_, h⟩

theorem agentStep_next (s : State) : ∃ t, agentStep s = .next t := by
  rcases agentStep_cases s with ⟨-, -, h⟩ | h
  · exact ⟨_, h⟩
  · exact h ▸ sequencerStep_next s

theorem eventStep_next (e : Event) (s : State) : ∃ t, eventStep e s = .next t := by
  cases e with
  | sequencer => exact sequencerStep_next s
  | agent => exact agentStep_next s
  | _ => exact ⟨_, rfl⟩

/-- Settles O6: with nothing scheduled the agents' own move, else the next event's; both go on. -/
theorem everyStepGoesOn : Obligations.EveryStepGoesOn := by
  unfold Obligations.EveryStepGoesOn
  intro s
  unfold step
  split
  · exact agentStep_next s
  · exact eventStep_next _ _

/-! ### The decoded command runs -/

theorem step_unscheduled {s : State} (hsched : s.schedule = []) : step s = agentStep s := by
  simp [step, hsched]

theorem sequencerStep_running {s : State} {w : Word} {i : Instr} (hs : s.resetIn = false)
    (hseq : s.seq = .running w) (hd : decode w = .ok i) : sequencerStep s = exec i s := by
  simp [sequencerStep, hs, hseq, hd]

theorem agentStep_not_awaiting {s : State} (h : awaitingAnswer s = false) :
    agentStep s = sequencerStep s := by
  simp [agentStep, h]

/-- Nothing is awaited of a command that makes no request, or whose answer has arrived. -/
theorem awaitingAnswer_eq_false {s : State} (h : runningRequest s = none ∨ s.engResp ≠ none) :
    awaitingAnswer s = false := by
  unfold awaitingAnswer
  rcases h with h | h
  · simp [h]
  · simp [Option.isNone_eq_false_iff.mpr (Option.isSome_iff_ne_none.mpr h)]

theorem tableWord_encode (i : Instr) : tableWord 32 (encode i).toNat = encode i := by
  rw [tableWord, Nat.mod_eq_of_lt (encode i).isLt, BitVec.ofNat_toNat, BitVec.setWidth_eq]

/-- A command made ready asks for what its registers make it ask. -/
theorem runningRequest_acceptReady (i : Instr) (s : State) :
    runningRequest (acceptReady (encode i) s) = requestOf i s.regs :=
  runningRequest_running (w := encode i) rfl (decode_encode i)

theorem engResp_acceptReady (i : Instr) (s : State) :
    (acceptReady (encode i) s).engResp = (requestOf i s.regs).map engineOf :=
  congrArg (Option.map engineOf) (runningRequest_acceptReady i s)

theorem awaitingAnswer_acceptReady (i : Instr) (s : State) :
    awaitingAnswer (acceptReady (encode i) s) = false := by
  apply awaitingAnswer_eq_false
  rw [runningRequest_acceptReady, engResp_acceptReady]
  cases requestOf i s.regs with
  | none => exact .inl rfl
  | some q => exact .inr (Option.some_ne_none _)

/-- Whatever is scheduled, the first move after `withFetchWord` is the sequencer's or the agents' own. -/
theorem step_withFetchWord (s : State) (nbits w : Nat) :
    step (s.withFetchWord nbits w) = sequencerStep (acceptReady (tableWord nbits w) s) ∨
    step (s.withFetchWord nbits w) = agentStep (acceptReady (tableWord nbits w) s) := by
  obtain ⟨_, _, _, _, _, _, _, _, _, schedule, _⟩ := s
  cases schedule with
  | nil => exact .inr rfl
  | cons e es => exact .inl rfl

/-- Settles O4: the scheduled move is `sequencerStep`, and so is the agents' own when no answer is awaited. -/
theorem sequencerRunsDecodedCommand : Obligations.SequencerRunsDecodedCommand := by
  unfold Obligations.SequencerRunsDecodedCommand
  intro s w i es hs hseq hd
  refine ⟨fun hsched => ?scheduled, fun hsched hawait => ?unscheduled⟩
  case scheduled => rw [step_sequencer hsched, sequencerStep_running (by exact hs) (by exact hseq) hd]
  case unscheduled =>
    rw [step_unscheduled hsched, agentStep_not_awaiting hawait, sequencerStep_running hs hseq hd]

/-- Settles O5: the state is `acceptReady`; the agents' own move is the sequencer's there, for the answer has
arrived. -/
theorem fetchedWordRunsNext : Obligations.FetchedWordRunsNext := by
  unfold Obligations.FetchedWordRunsNext
  intro s i
  refine ⟨acceptReady (encode i) s, ?runs, rfl, rfl, rfl, rfl, rfl, rfl, rfl, rfl, rfl,
    engResp_acceptReady i s⟩
  case runs =>
    have hruns : sequencerStep (acceptReady (encode i) s) = exec i (acceptReady (encode i) s) :=
      sequencerStep_running rfl rfl (decode_encode i)
    have hfirst := step_withFetchWord s 32 (encode i).toNat
    rw [tableWord_encode, agentStep_not_awaiting (awaitingAnswer_acceptReady i s), hruns] at hfirst
    exact hfirst.elim id id

/-! ### Requests and answers -/

theorem completeWithEngine_of_no_answer {c : Bool} {request : Except CmdError EngineRequest}
    {result : EngineRequest → EngineAnswer → Except CmdError Regs} {q : EngineRequest} {s : State}
    (hq : request.toOption = some q) (hresp : s.engResp = none) :
    completeWithEngine c request result s = { s with engReq := true } := by
  cases request with
  | error e => cases hq
  | ok q' => simp [completeWithEngine, hresp]

/-- A command whose checks pass waits for the answer it asks for (41_truncate.md rule R121). -/
theorem exec_of_no_answer {i : Instr} {s : State} {q : EngineRequest} (hq : requestOf i s.regs = some q)
    (hresp : s.engResp = none) : exec i s = .next { s with engReq := true } := by
  cases i with
  | hmac => exact congrArg Host.Outcome.next (completeWithEngine_of_no_answer hq hresp)
  | hotp => exact congrArg Host.Outcome.next (completeWithEngine_of_no_answer hq hresp)
  | totp => exact congrArg Host.Outcome.next (completeWithEngine_of_no_answer hq hresp)
  | _ => cases hq

theorem engineAnswers_of_request {s : State} {q : EngineRequest} (hq : runningRequest s = some q)
    (hreq : s.engReq = true) (hresp : s.engResp = none) :
    engineAnswers s = { s with engResp := some (engineOf q) } := by
  simp [engineAnswers, awaitingAnswer, hq, hreq, hresp]

/-! ### Several steps -/

theorem runSteps_zero (s : State) : runSteps 0 s = .next s := rfl

theorem runSteps_succ {s u : State} {k : Nat} (h : step s = .next u) : runSteps (k + 1) s = runSteps k u := by
  simp [runSteps, core, Host.Core.run, h]

/-! ### Finishing a command -/

/-- The block is idle with BUSY = 0 and DONE = 1, and keeps CMD, IE and the sticky bits
(40_command.md rule R101). -/
def Finishes (s t : State) : Prop :=
  t.seq = .idle ∧ t.status.busy = false ∧ t.status.done = true ∧ t.cmd = s.cmd ∧ t.ie = s.ie ∧
    t.status.accErr = s.status.accErr ∧ t.status.busyErr = s.status.busyErr

theorem finishes_completeOk (r : Regs) (s : State) : Finishes s (completeOk r s) :=
  ⟨rfl, rfl, rfl, rfl, rfl, rfl, rfl⟩

theorem finishes_completeError (c : Bool) (e : CmdError) (s : State) : Finishes s (completeError c e s) :=
  ⟨rfl, rfl, rfl, rfl, rfl, rfl, rfl⟩

/-- The sequencer has no move, finishes the command, or issues its request. -/
theorem sequencerStep_finishes_or_requests {s t : State} (h : sequencerStep s = .next t) :
    ((s.resetIn = true ∨ s.seq = .idle) ∧ t = s) ∨ (s.seq ≠ .idle ∧ Finishes s t) ∨
      (∃ q, runningRequest s = some q ∧ s.engResp = none ∧ t = { s with engReq := true }) := by
  rcases sequencerStep_cases s with ⟨hno, hn⟩ | ⟨w, i, -, hseq, hd, hexec⟩ | ⟨w, why, -, hseq, -, herr⟩
  · cases hn.symm.trans h
    exact .inl ⟨hno, rfl⟩
  · obtain ⟨u, hu, hcases⟩ := exec_cases i s
    cases (hexec.trans hu).symm.trans h
    rcases hcases with ⟨r, -, rfl⟩ | ⟨e, rfl⟩ | ⟨q, hq, hresp, rfl⟩
    · exact .inr (.inl ⟨by simp [hseq], finishes_completeOk r s⟩)
    · exact .inr (.inl ⟨by simp [hseq], finishes_completeError _ e s⟩)
    · exact .inr (.inr ⟨q, (runningRequest_running hseq hd).trans hq, hresp, rfl⟩)
  · cases herr.symm.trans h
    exact .inr (.inl ⟨by simp [hseq], finishes_completeError _ _ s⟩)

/-- The agents' own move for an outstanding request is the engine's answer (log entry 2). -/
theorem agentStep_answers {s : State} {q : EngineRequest} (hs : s.resetIn = false)
    (hq : runningRequest s = some q) (hreq : s.engReq = true) (hresp : s.engResp = none) :
    agentStep s = .next { s with engResp := some (engineOf q) } := by
  rw [agentStep, engineAnswers_of_request hq hreq hresp]
  simp [hs, awaitingAnswer, hq, hreq, hresp]

section
variable {s : State} {w : Word} (hs : s.resetIn = false) (hseq : s.seq = .running w)
include hs hseq

/-- A running command that awaits no answer finishes in the sequencer's next step (rule R101). -/
theorem sequencerStep_finishes (h : runningRequest s = none ∨ s.engResp ≠ none) :
    ∃ t, sequencerStep s = .next t ∧ Finishes s t := by
  obtain ⟨t, ht⟩ := sequencerStep_next s
  rcases sequencerStep_finishes_or_requests ht with ⟨hno, -⟩ | ⟨-, hfin⟩ | ⟨q, hq, hresp, -⟩
  · simp [hs, hseq] at hno
  · exact ⟨t, ht, hfin⟩
  · simp [hq, hresp] at h

/-- A request not yet answered is issued, and nothing else changes (41_truncate.md rule R121). -/
theorem sequencerStep_requests {q : EngineRequest} (hq : runningRequest s = some q)
    (hresp : s.engResp = none) : sequencerStep s = .next { s with engReq := true } := by
  cases hd : decode w with
  | error why => simp [runningRequest, hseq, hd] at hq
  | ok i =>
    rw [sequencerStep_running hs hseq hd]
    exact exec_of_no_answer ((runningRequest_running hseq hd).symm.trans hq) hresp

theorem finishes_in_one (hsched : s.schedule = []) (h : runningRequest s = none ∨ s.engResp ≠ none) :
    ∃ t, runSteps 1 s = .next t ∧ Finishes s t := by
  obtain ⟨t, ht, hfin⟩ := sequencerStep_finishes hs hseq h
  refine ⟨t, ?_, hfin⟩
  rw [runSteps_succ ((step_unscheduled hsched).trans
    ((agentStep_not_awaiting (awaitingAnswer_eq_false h)).trans ht)), runSteps_zero]

/-- A request outstanding: the engine answers, then the command finishes. -/
theorem finishes_in_two (hsched : s.schedule = []) {q : EngineRequest} (hq : runningRequest s = some q)
    (hreq : s.engReq = true) (hresp : s.engResp = none) : ∃ t, runSteps 2 s = .next t ∧ Finishes s t := by
  rw [runSteps_succ ((step_unscheduled hsched).trans (agentStep_answers hs hq hreq hresp))]
  exact finishes_in_one (s := { s with engResp := some (engineOf q) }) hs hseq hsched
    (.inr (Option.some_ne_none _))

/-- No request issued yet: it is issued first. -/
theorem finishes_in_three (hsched : s.schedule = []) {q : EngineRequest} (hq : runningRequest s = some q)
    (hreq : s.engReq = false) (hresp : s.engResp = none) : ∃ t, runSteps 3 s = .next t ∧ Finishes s t := by
  have hnone : awaitingAnswer s = false := by simp [awaitingAnswer, hreq]
  rw [runSteps_succ ((step_unscheduled hsched).trans
    ((agentStep_not_awaiting hnone).trans (sequencerStep_requests hs hseq hq hresp)))]
  exact finishes_in_two (s := { s with engReq := true }) hs hseq hsched hq rfl hresp

end

/-- Settles O27: by how far the running command's request has come: none or answered, outstanding, or not yet
issued. -/
theorem acceptedCommandCompletes : Obligations.AcceptedCommandCompletes := by
  unfold Obligations.AcceptedCommandCompletes
  intro s w hs hseq hsched
  have hwithin {k : Nat} (hk : 1 ≤ k ∧ k ≤ 3) (h : ∃ t, runSteps k s = .next t ∧ Finishes s t) :
      ∃ k t, 1 ≤ k ∧ k ≤ 3 ∧ runSteps k s = .next t ∧ t.seq = .idle ∧ t.status.busy = false ∧
        t.status.done = true ∧ t.cmd = s.cmd ∧ t.ie = s.ie := by
    obtain ⟨t, hrun, hidle, hbusy, hdone, hcmd, hie, -⟩ := h
    exact ⟨k, t, hk.1, hk.2, hrun, hidle, hbusy, hdone, hcmd, hie⟩
  cases hq : runningRequest s with
  | none => exact hwithin (by decide) (finishes_in_one hs hseq hsched (.inl hq))
  | some q =>
    cases hresp : s.engResp with
    | some a => exact hwithin (by decide) (finishes_in_one hs hseq hsched (.inr (by simp [hresp])))
    | none =>
      cases hreq : s.engReq with
      | true => exact hwithin (by decide) (finishes_in_two hs hseq hsched hq hreq hresp)
      | false => exact hwithin (by decide) (finishes_in_three hs hseq hsched hq hreq hresp)

/-- Settles O26: an access leaves the schedule as it is, so the sequencer's move follows it; a command that
awaits nothing finishes in that move, whatever the write to STATUS cleared. -/
theorem completionWinsOverSameCycleClear : Obligations.CompletionWinsOverSameCycleClear := by
  unfold Obligations.CompletionWinsOverSameCycleClear
  intro s es
  have hcycle {a : Access} {t : State} (hsched : s.schedule = sameCycle a ++ es)
      (ht : sequencerStep (hostAccess a { s with schedule := es }) = .next t) :
      ∃ u, step s = .next u ∧ runSteps 2 s = .next t := by
    have haccess := step_host (s := s) (a := a) (es := .sequencer :: es) hsched
    refine ⟨_, haccess, runSteps_two haccess ?_⟩
    rw [step_sequencer (hostAccess_schedule a _), ← hostAccess_withSchedule]
    exact ht
  refine ⟨fun a hsched => ?accessFirst, fun w v hs hseq hready hsched => ?doneWins⟩
  case accessFirst =>
    obtain ⟨t, ht⟩ := sequencerStep_next (hostAccess a { s with schedule := es })
    obtain ⟨u, hu, hrun⟩ := hcycle hsched ht
    exact ⟨u, t, hu, hrun, ht⟩
  case doneWins =>
    obtain ⟨t, ht, hidle, -, hdone, -⟩ :=
      sequencerStep_finishes (s := writeStatus v { s with schedule := es }) hs hseq hready
    have hclears := hostAccess_wr_status (s := { s with schedule := es }) v hs
    obtain ⟨u, -, hrun⟩ := hcycle hsched ((congrArg sequencerStep hclears).trans ht)
    exact ⟨t, hrun, hdone, hidle⟩

/-! ### No partial result -/

/-- No register shows the hidden state of the engine port. -/
theorem readReg_enginePort (s : State) (req : Bool) (resp : Option EngineAnswer) (r : Reg) :
    readReg { s with engReq := req, engResp := resp } r = readReg s r := by
  cases r <;> rfl

/-- What a move of the sequencer, the engine or the agents shows of a command: nothing, or all of it
(20_memory.md section 5). -/
def HoldsOrFinishes (s t : State) : Prop :=
  (t.seq = s.seq ∧ ∀ r, readReg t r = readReg s r) ∨ Finishes s t

theorem sequencerStep_holdsOrFinishes {s t : State} (h : sequencerStep s = .next t) : HoldsOrFinishes s t := by
  rcases sequencerStep_finishes_or_requests h with ⟨-, rfl⟩ | ⟨-, hfin⟩ | ⟨q, -, -, rfl⟩
  · exact .inl ⟨rfl, fun _ => rfl⟩
  · exact .inr hfin
  · exact .inl ⟨rfl, readReg_enginePort s true s.engResp⟩

theorem engineAnswers_seq (s : State) : (engineAnswers s).seq = s.seq := by
  rcases engineAnswers_cases s with h | ⟨q, -, -, -, h⟩ <;> rw [h]

theorem readReg_engineAnswers (s : State) (r : Reg) : readReg (engineAnswers s) r = readReg s r := by
  rcases engineAnswers_cases s with h | ⟨q, -, -, -, h⟩ <;> rw [h]
  exact readReg_enginePort s s.engReq _ r

theorem engineAnswers_holdsOrFinishes (s : State) : HoldsOrFinishes s (engineAnswers s) :=
  .inl ⟨engineAnswers_seq s, readReg_engineAnswers s⟩

theorem agentStep_holdsOrFinishes {s t : State} (h : agentStep s = .next t) : HoldsOrFinishes s t := by
  rcases agentStep_cases s with ⟨-, -, hanswer⟩ | hseq
  · cases hanswer.symm.trans h
    exact engineAnswers_holdsOrFinishes s
  · exact sequencerStep_holdsOrFinishes (hseq.symm.trans h)

theorem engineStep_holdsOrFinishes (s : State) : HoldsOrFinishes s (engineStep s) := by
  unfold engineStep
  split
  · exact .inl ⟨rfl, fun _ => rfl⟩
  · exact engineAnswers_holdsOrFinishes s

/-- Taking the move off the schedule shows in no register. -/
theorem HoldsOrFinishes.of_withSchedule {s t : State} {es : List Event}
    (h : HoldsOrFinishes { s with schedule := es } t) : HoldsOrFinishes s t := by
  rcases h with ⟨hseq, hregs⟩ | hfin
  · exact .inl ⟨hseq, fun r => (hregs r).trans (readReg_modelFields s es s.readData r)⟩
  · exact .inr hfin

/-- Settles O28: each of the four moves holds or finishes the command. -/
theorem noPartialResultIsVisible : Obligations.NoPartialResultIsVisible := by
  unfold Obligations.NoPartialResultIsVisible
  intro s t w hseq hmove hstep
  have hshown : HoldsOrFinishes s t := by
    rcases hmove with (hsched | ⟨es, hsched | hsched⟩) | ⟨es, hsched⟩
    · exact agentStep_holdsOrFinishes ((step_unscheduled hsched).symm.trans hstep)
    · exact (sequencerStep_holdsOrFinishes ((step_sequencer hsched).symm.trans hstep)).of_withSchedule
    · have hagent : step s = agentStep { s with schedule := es } := by simp [step, hsched, eventStep]
      exact (agentStep_holdsOrFinishes (hagent.symm.trans hstep)).of_withSchedule
    · have hengine : step s = .next (engineStep { s with schedule := es }) := by
        simp [step, hsched, eventStep]
      cases hengine.symm.trans hstep
      exact (engineStep_holdsOrFinishes _).of_withSchedule
  rcases hshown with ⟨hsame, hregs⟩ | ⟨hidle, hbusy, hdone, -⟩
  · exact .inl ⟨hsame.trans hseq, hregs⟩
  · exact .inr ⟨hidle, hbusy, hdone⟩

/-! ### The engine port -/

/-- Settles O30: the answer is `engineAnswers_of_request`, the discarding `engineStep_of_no_request`, the
request `exec_of_no_answer`; of what a command does (`exec_cases`) only the request leaves `eng_req` set. -/
theorem engineAnswersOutstandingRequestOnly : Obligations.EngineAnswersOutstandingRequestOnly := by
  unfold Obligations.EngineAnswersOutstandingRequestOnly
  intro s w i hs hseq hd
  refine ⟨fun q hq hreq hresp => ?answered, engineStep_of_no_request, fun q hq hresp => ?requested,
    fun t hexec hreq => ?once, fun q hno => if_neg (Bool.eq_false_iff.mp hno)⟩
  case answered =>
    rw [engineStep, if_neg (Bool.eq_false_iff.mp hs)]
    exact engineAnswers_of_request ((runningRequest_running hseq hd).trans hq) hreq hresp
  case requested => exact exec_of_no_answer hq hresp
  case once =>
    obtain ⟨u, hu, hcases⟩ := exec_cases i s
    cases hu.symm.trans hexec
    rcases hcases with ⟨r, -, rfl⟩ | ⟨e, rfl⟩ | ⟨q, hq, -, rfl⟩
    · cases hreq -- a success
    · cases hreq -- an error
    · exact ⟨rfl, q, hq⟩

end Sys2Proof.Proofs
end

section
/-! Who changes the registers (10_state.md section 7, 60_exceptions.md section 3): the writers of each register,
and what clears ACCERR and BUSYERR. -/

namespace Sys2Proof.Proofs

open Sys2Proof.Machine Sys2Proof.Spec

/-! ### ACCERR and BUSYERR -/

/-- ACCERR and BUSYERR stay set if they were. -/
def KeepsSticky (s t : State) : Prop :=
  (s.status.accErr = true → t.status.accErr = true) ∧ (s.status.busyErr = true → t.status.busyErr = true)

theorem keepsSticky_of_status_eq {s t : State} (h : t.status = s.status) : KeepsSticky s t :=
  ⟨fun ha => h ▸ ha, fun hb => h ▸ hb⟩

/-- A host access keeps them, or is a write to STATUS or a soft reset. -/
theorem hostAccess_keepsSticky (a : Access) (s : State) : KeepsSticky s (hostAccess a s) ∨
    (∃ v, a = wr .status v ∧ (hostAccess a s).status = statusCleared v s.status) ∨
    (∃ v : Word, a = wr .ctrl v ∧ v.getLsbD 1 = true) := by
  cases hs : s.resetIn with
  | true => rcases hostAccess_in_reset a s hs with h | h <;> exact .inl (keepsSticky_of_status_eq (by rw [h]))
  | false =>
    rcases hostAccess_cases a s hs with h | h | ⟨r, h⟩ | ⟨v, rfl, hv, -⟩ | ⟨v, -, -, h⟩ | ⟨v, rfl, h⟩ |
      ⟨w, -, h⟩ | ⟨w, -, -, h⟩ | ⟨r, v, -, -, -, -, -, -, h⟩
    · exact .inl (by rw [h]; exact ⟨fun _ => rfl, id⟩) -- an access error, of a write
    · exact .inl (by rw [h]; exact ⟨fun _ => rfl, id⟩) -- an access error, of a read
    · exact .inl (keepsSticky_of_status_eq (by rw [h])) -- a read
    · exact .inr (.inr ⟨v, rfl, hv⟩) -- a reset by SRST
    · exact .inl (keepsSticky_of_status_eq (by rw [h])) -- a store of IE
    · exact .inr (.inl ⟨v, rfl, by rw [h, writeStatus_status]⟩) -- a clearing in STATUS
    · exact .inl (by rw [h]; exact ⟨id, fun _ => rfl⟩) -- a dropped write
    · exact .inl (by rw [h]; exact ⟨id, id⟩) -- an acceptance
    · exact .inl (keepsSticky_of_status_eq (by rw [h])) -- a store

theorem sequencerStep_keepsSticky {s t : State} (h : sequencerStep s = .next t) : KeepsSticky s t := by
  rcases sequencerStep_finishes_or_requests h with ⟨-, rfl⟩ | ⟨-, hfin⟩ | ⟨q, -, -, rfl⟩
  · exact keepsSticky_of_status_eq rfl
  · obtain ⟨-, -, -, -, -, hacc, hbusy⟩ := hfin
    exact ⟨fun h => hacc.trans h, fun h => hbusy.trans h⟩
  · exact keepsSticky_of_status_eq rfl

theorem step_keepsSticky {s t : State} (h : step s = .next t) : KeepsSticky s t ∨
    (∃ v, HostMove (wr .status v) s ∧ t.status = statusCleared v s.status) ∨ ResetMove s := by
  obtain ⟨es, -, hmove⟩ := step_cases s t h
  rcases hmove with rfl | ⟨-, hseq⟩ | ⟨-, rfl⟩ | ⟨a, hsched, rfl⟩ | ⟨d, l, -, rfl⟩ | ⟨hsched, -⟩ |
    ⟨hsched, -, -⟩
  · exact .inl (keepsSticky_of_status_eq rfl) -- a move with no effect
  · -- the sequencer's move
    have hkeeps := sequencerStep_keepsSticky hseq
    exact .inl hkeeps
  · exact .inl (keepsSticky_of_status_eq (engineAnswers_status _))
  · -- a host access
    rcases hostAccess_keepsSticky a { s with schedule := es } with hkeeps | ⟨v, rfl, hst⟩ | ⟨v, rfl, hv⟩
    · exact .inl hkeeps
    · exact .inr (.inl ⟨v, ⟨es, hsched⟩, hst⟩)
    · exact .inr (.inr (.inr ⟨v, ⟨es, hsched⟩, hv⟩))
  · exact .inl (keepsSticky_of_status_eq rfl) -- a WAIT
  · exact .inr (.inr (.inl ⟨es, .inl hsched⟩)) -- the reset input asserted
  · exact .inr (.inr (.inl ⟨es, .inr hsched⟩)) -- the reset input released

/-- A bit of STATUS that a step took away was cleared by a write of 1 to it, or by a reset. -/
theorem cleared_by_host_or_reset {s : State} {bit : Nat}
    (h : (∃ v : Word, HostMove (wr .status v) s ∧ v.getLsbD bit = true) ∨ ResetMove s) :
    ∃ es, s.schedule = .assertReset :: es ∨ s.schedule = .releaseReset :: es ∨
      (∃ v : Word, s.schedule = .host (wr .status v) :: es ∧ v.getLsbD bit = true) ∨
      (∃ v : Word, s.schedule = .host (wr .ctrl v) :: es ∧ v.getLsbD 1 = true) := by
  rcases h with ⟨v, ⟨es, hsched⟩, hv⟩ | ⟨es, hsched | hsched⟩ | ⟨v, ⟨es, hsched⟩, hv⟩
  · exact ⟨es, .inr (.inr (.inl ⟨v, hsched, hv⟩))⟩
  · exact ⟨es, .inl hsched⟩
  · exact ⟨es, .inr (.inl hsched)⟩
  · exact ⟨es, .inr (.inr (.inr ⟨v, hsched, hv⟩))⟩

/-- Settles O25: every move but a STATUS write and a reset keeps the bits (`step_keepsSticky`), and a STATUS
write clears the bits written 1. -/
theorem stickyBitsClearedOnlyByHostOrReset : Obligations.StickyBitsClearedOnlyByHostOrReset := by
  unfold Obligations.StickyBitsClearedOnlyByHostOrReset
  intro s t hstep
  refine ⟨fun hset hclear => cleared_by_host_or_reset ?accErr,
    fun hset hclear => cleared_by_host_or_reset ?busyErr⟩
  case accErr =>
    rcases step_keepsSticky hstep with ⟨hkeeps, -⟩ | ⟨v, hhost, hst⟩ | hreset
    · cases (hkeeps hset).symm.trans hclear
    · exact .inl ⟨v, hhost, by simpa [hst, hset] using hclear⟩
    · exact .inr hreset
  case busyErr =>
    rcases step_keepsSticky hstep with ⟨-, hkeeps⟩ | ⟨v, hhost, hst⟩ | hreset
    · cases (hkeeps hset).symm.trans hclear
    · exact .inl ⟨v, hhost, by simpa [hst, hset] using hclear⟩
    · exact .inr hreset

/-! ### The registers a command writes -/

/-- A success writes no register but the command's own (10_state.md rule R48). -/
theorem successRegs_frame {i : Instr} {s : State} {regs : Regs} (h : SuccessRegs i s regs) :
    SameRegsBut (mayWrite i s.regs.cfg.chk) s { s with regs := regs } := by
  cases i with
  | nop =>
    obtain rfl : regs = s.regs := h
    exact fun _ _ => rfl
  | mfenc =>
    obtain rfl : regs = mfencRegs s.regs := h
    exact mfencRegs_frame s
  | hexenc =>
    obtain rfl : regs = hexencRegs s.regs := h
    exact hexencRegs_frame s
  | hmac =>
    obtain ⟨d, rfl⟩ := successRegs_hmac h
    exact digest_frame s d
  | luhn =>
    obtain ⟨num, d, rfl⟩ := successRegs_luhn h
    exact fun r hr => readReg_lres_ne s s.regs _ hr
  | tstep =>
    obtain ⟨v, rfl⟩ := successRegs_tstep h
    exact fun r hr => readReg_ctr_ne s s.regs v hr
  | hexdec =>
    obtain ⟨v, rfl⟩ := successRegs_hexdec h
    exact fun r hr => readReg_ctr_ne s s.regs v hr
  | trunc =>
    obtain ⟨-, a, rfl⟩ := successRegs_trunc h
    intro r hr
    cases hchk : s.regs.cfg.chk with
    | false => exact truncRegs_frame_of_not_chk hchk r fun hres => hr (.inl hres)
    | true => exact truncRegs_frame_of_chk hchk r fun hres => hr (hres.imp_right fun hl => ⟨hchk, hl⟩)
  | hotp =>
    obtain ⟨-, a, d, rfl⟩ := successRegs_hotp h
    exact hotpRegs_frame s s.regs a d
  | totp =>
    obtain ⟨-, t0, a, d, rfl⟩ := successRegs_totp h
    exact hotpRegs_tstepRegs_frame s t0 a d

theorem mayWrite_of_isCode {i : Instr} {r : Reg} (chk : Bool) (hi : clearsCode i = true) (hr : isCode r) :
    mayWrite i chk r := by
  have hres : isResult r := .inr (.inr (.inr (.inr hr)))
  cases i with
  | trunc => exact .inl hres
  | hotp => exact .inr (.inr hres)
  | totp => exact .inr (.inr (.inr hres))
  | _ => cases hi

theorem readReg_completeError_isCode {r : Reg} (e : CmdError) (s : State) (hr : isCode r) :
    readReg (completeError true e s) r = 0x00000000#32 := by
  rcases hr with rfl | ⟨j, rfl⟩
  · exact (by decide : (0#26 ++ 0#6 : Word) = 0#32)
  · exact bufWord_replicate_zero 32 j

/-- An error completion changes STATUS, ERRINFO and, of a code-producing command, CODE and CODELEN
(40_command.md rule R104). -/
theorem completeError_writes {c : Bool} {e : CmdError} {s : State} {r : Reg}
    (h : readReg (completeError c e s) r ≠ readReg s r) :
    r = .status ∨ r = .errinfo ∨ (c = true ∧ isCode r) := by
  by_contra hnot
  simp only [not_or, not_and] at hnot
  obtain ⟨hstatus, herrinfo, hcode⟩ := hnot
  cases c with
  | false => exact h (readReg_completeError_false e s hstatus herrinfo)
  | true => exact h (readReg_completeError_true e s hstatus herrinfo (hcode rfl))

/-! ### The writers of a register -/

/-- The register is one a completion may change: STATUS, on an error ERRINFO, or one of the running command's,
with its result on success and zero on an error. -/
def WrittenByCompletion (s t : State) (r : Reg) : Prop :=
  (r = .status ∨ (r = .errinfo ∧ t.status.err = true)) ∨
  ∃ w i, s.seq = .running w ∧ decode w = .ok i ∧ mayWrite i s.regs.cfg.chk r ∧
    ((t.status.err = s.status.err ∧ t.errInfo = s.errInfo) ∨
      (t.status.err = true ∧ isCode r ∧ readReg t r = 0x00000000#32))

theorem exec_writes {s t : State} {w : Word} {i : Instr} {r : Reg} (hseq : s.seq = .running w)
    (hd : decode w = .ok i) (hexec : exec i s = .next t) (hne : readReg t r ≠ readReg s r) :
    Finishes s t ∧ WrittenByCompletion s t r := by
  obtain ⟨u, hu, hcases⟩ := exec_cases i s
  cases hu.symm.trans hexec
  rcases hcases with ⟨regs, hregs, rfl⟩ | ⟨e, rfl⟩ | ⟨q, -, -, rfl⟩
  · -- a success
    refine ⟨finishes_completeOk regs s, ?_⟩
    by_cases hstatus : r = .status
    · exact .inl (.inl hstatus)
    · rw [readReg_completeOk_ne regs s hstatus] at hne
      have hmay := not_imp_comm.mp (successRegs_frame hregs r) hne
      exact .inr ⟨w, i, hseq, hd, hmay, .inl ⟨rfl, rfl⟩⟩
  · -- an error
    refine ⟨finishes_completeError _ e s, ?_⟩
    rcases completeError_writes hne with hr | hr | ⟨hc, hcode⟩
    · exact .inl (.inl hr)
    · exact .inl (.inr ⟨hr, rfl⟩)
    · have hzero := readReg_completeError_isCode e s hcode
      exact .inr ⟨w, i, hseq, hd, mayWrite_of_isCode _ hc hcode, .inr ⟨rfl, hcode, hc ▸ hzero⟩⟩
  · exact absurd (readReg_enginePort s true s.engResp r) hne -- the request

/-- The sequencer's move changes a register only by a completion. -/
theorem sequencerStep_writes {s t : State} {r : Reg} (h : sequencerStep s = .next t)
    (hne : readReg t r ≠ readReg s r) : s.seq ≠ .idle ∧ Finishes s t ∧ WrittenByCompletion s t r := by
  rcases sequencerStep_cases s with ⟨-, hn⟩ | ⟨w, i, -, hseq, hd, hexec⟩ | ⟨w, why, -, hseq, -, herr⟩
  · cases hn.symm.trans h
    exact absurd rfl hne
  · exact ⟨by simp [hseq], exec_writes hseq hd (hexec.symm.trans h) hne⟩
  · cases herr.symm.trans h
    refine ⟨by simp [hseq], finishes_completeError _ _ s, .inl ?_⟩
    rcases completeError_writes hne with hr | hr | ⟨hc, -⟩
    · exact .inl hr
    · exact .inr ⟨hr, rfl⟩
    · cases hc

/-- What a host access that changes a register is: a soft reset, a write to that register, an acceptance, or an
effect on STATUS. -/
theorem hostAccess_writes {a : Access} {s : State} {r : Reg}
    (hne : readReg (hostAccess a s) r ≠ readReg s r) :
    (∃ v : Word, a = wr .ctrl v ∧ v.getLsbD 1 = true) ∨
    (∃ v, a = wr r v ∧ (r = .ctrl ∨ (hostStores r ∧ s.seq = .idle))) ∨
    (∃ v, a = wr .cmd v ∧ s.seq = .idle ∧ (hostAccess a s).seq = .running v ∧
      (r = .cmd ∨ r = .status ∨ r = .errinfo)) ∨
    (r = .status ∧ HostChangesStatus a s (hostAccess a s)) := by
  have hstatus {st : Status} (h : readReg { s with status := st } r ≠ readReg s r) : r = .status :=
    not_imp_comm.mp (readReg_status_ne s st) h
  cases hs : s.resetIn with
  | true =>
    rcases hostAccess_in_reset a s hs with h | h <;> rw [h] at hne
    · exact absurd rfl hne
    · exact absurd (readReg_modelFields s s.schedule _ r) hne
  | false =>
    rcases hostAccess_cases a s hs with h | h | ⟨r', h⟩ | ⟨v, rfl, hv, -⟩ | ⟨v, rfl, -, h⟩ | ⟨v, rfl, h⟩ |
      ⟨w, hseq, h⟩ | ⟨v, rfl, hseq, h⟩ | ⟨r', v, rfl, hseq, hro, hctrl, hst, hcmd, h⟩
    · -- an access error, of a write
      rw [h] at hne ⊢
      exact .inr (.inr (.inr ⟨hstatus hne, .inl rfl⟩))
    · -- an access error, of a read
      rw [h] at hne ⊢
      have hread := readReg_modelFields (accessError s) s.schedule 0x00000000#32 r
      exact .inr (.inr (.inr ⟨hstatus fun heq => hne (hread.trans heq), .inl rfl⟩))
    · -- a read
      rw [h] at hne
      exact absurd (readReg_modelFields s s.schedule _ r) hne
    · exact .inl ⟨v, rfl, hv⟩ -- a reset by SRST
    · -- a store of IE
      rw [h] at hne
      obtain rfl : r = .ctrl := not_imp_comm.mp (readReg_ie_ne s _) hne
      exact .inr (.inl ⟨v, rfl, .inl rfl⟩)
    · -- a clearing in STATUS
      rw [h] at hne ⊢
      exact .inr (.inr (.inr ⟨hstatus hne, .inr (.inr ⟨v, rfl, rfl⟩)⟩))
    · -- a dropped write
      rw [h] at hne ⊢
      exact .inr (.inr (.inr ⟨hstatus hne, .inr (.inl ⟨by simp [hseq], rfl⟩)⟩))
    · -- an acceptance
      rw [h] at hne ⊢
      refine .inr (.inr (.inl ⟨v, rfl, hseq, rfl, ?_⟩))
      by_contra hnot
      simp only [not_or] at hnot
      obtain ⟨hcmd, hst, herrinfo⟩ := hnot
      exact hne (readReg_accept_ne v s hcmd hst herrinfo)
    · -- a store
      rw [h] at hne
      obtain rfl : r = r' := not_imp_comm.mp (readReg_storeReg_ne s r' r v) hne
      exact .inr (.inl ⟨v, rfl, .inr ⟨(hostStores_iff r).mpr ⟨hro, hctrl, hst, hcmd⟩, hseq⟩⟩)

/-- Settles O29: by the kind of move; the sequencer's is `sequencerStep_writes`, the host's `hostAccess_writes`,
and no other but a reset changes a register. -/
theorem registersChangeOnlyByTheirWriters : Obligations.RegistersChangeOnlyByTheirWriters := by
  unfold Obligations.RegistersChangeOnlyByTheirWriters
  intro s t r hstep hne
  obtain ⟨es, -, hmove⟩ := step_cases s t hstep
  have htaken := readReg_modelFields s es s.readData r
  rcases hmove with rfl | ⟨hsched, hseq⟩ | ⟨-, rfl⟩ | ⟨a, hsched, rfl⟩ | ⟨d, l, -, rfl⟩ | ⟨hsched, -⟩ |
    ⟨hsched, -, -⟩
  · exact absurd htaken hne -- a move with no effect
  · -- the sequencer's move
    obtain ⟨hrun, ⟨hidle, hbusy, hdone, -⟩, hwritten⟩ := sequencerStep_writes hseq (htaken ▸ hne)
    have hmove : SequencerMove s := hsched.imp_right fun h => ⟨es, h⟩
    have hstep : CompletionStep s t := ⟨hmove, hrun, hidle, hbusy, hdone⟩
    rcases hwritten with hr | ⟨w, i, hseq, hd, hmay, hresult⟩
    · exact .inr (.inr (.inr (.inr (.inl ⟨hstep, hr⟩))))
    · exact .inr (.inr (.inr (.inr (.inr ⟨w, i, hstep, hseq, hd, hmay, hresult⟩))))
  · exact absurd ((readReg_engineAnswers _ r).trans htaken) hne -- an answer of the engine
  · -- a host access
    rcases hostAccess_writes (htaken ▸ hne) with ⟨v, rfl, hv⟩ | ⟨v, rfl, hr⟩ | ⟨v, rfl, hidle, hrun, hr⟩ |
      ⟨hr, hchanges⟩
    · exact .inl (.inr ⟨v, ⟨es, hsched⟩, hv⟩)
    · exact .inr (.inl ⟨v, ⟨es, hsched⟩, hr⟩)
    · exact .inr (.inr (.inl ⟨v, ⟨es, hsched⟩, hidle, hrun, hr⟩))
    · exact .inr (.inr (.inr (.inl ⟨a, ⟨es, hsched⟩, hr, hchanges⟩)))
  · exact absurd (readReg_modelFields s l d r) hne -- a WAIT
  · exact .inl (.inl ⟨es, .inl hsched⟩) -- the reset input asserted
  · exact .inl (.inl ⟨es, .inr hsched⟩) -- the reset input released

end Sys2Proof.Proofs
end

section
/-! The commands from the reset state (70_reset_and_hazards.md section 2), a padded hexadecimal text
(42_moving_factor.md rule R176), and host programs (30_encoding.md rule R86). -/

namespace Sys2Proof.Proofs

open Sys2Proof.Machine Sys2Proof.Spec

/-! ### Every command from the reset state -/

/-- A legal configuration (70_reset_and_hazards.md section 2): with a digest for the command that asks, no
command but HEXDEC fails. -/
theorem exec_succeeds_of_legal {i : Instr} {s : State} {a : Alg} {len t0 : Nat} {d : Vector Byte 64}
    (halg : Selected s a len) (hdigits : DigitsLegal s) (htime : s.regs.time.toInt = t0)
    (hans : s.engResp = some (.digest d)) (hi : i ≠ .hexdec) : ∃ r, exec i s = .next (completeOk r s) := by
  cases i with
  | nop => exact ⟨_, exec_nop s⟩
  | mfenc => exact ⟨_, exec_mfenc s⟩
  | hmac => exact ⟨_, exec_hmac_of_answer halg hans⟩
  | trunc => exact ⟨_, exec_trunc_of_legal halg hdigits⟩
  | luhn => exact ⟨_, exec_luhn_of_legal hdigits⟩
  | hotp => exact ⟨_, exec_hotp_of_answer halg hdigits hans⟩
  | tstep => exact ⟨_, exec_tstep_of_nonneg htime⟩
  | hexenc => exact ⟨_, exec_hexenc s⟩
  | hexdec => exact absurd rfl hi
  | totp => exact ⟨_, exec_totp_of_digest halg hdigits htime hans⟩

/-- Settles O22: the reset values of CFG and TIME pass every check, the acceptance cleared ERR, and HEXLEN = 0
fails HEXDEC's first check. -/
theorem resetStateIsLegalConfiguration : Obligations.ResetStateIsLegalConfiguration := by
  unfold Obligations.ResetStateIsLegalConfiguration
  refine ⟨fun i d hi => ?succeeds, ?hexdec⟩
  case succeeds =>
    have halg : Selected State.reset .sha1 20 := .inl ⟨rfl, rfl, rfl⟩
    have hdigits : DigitsLegal State.reset := ⟨by decide, by decide⟩
    have htime : State.reset.regs.time.toInt = (0 : Nat) := rfl
    obtain ⟨r, hexec⟩ := exec_succeeds_of_legal
      (s := { accept (encode i) State.reset with engResp := some (.digest d) }) halg hdigits htime rfl hi
    exact ⟨_, hexec, rfl, rfl, rfl⟩
  case hexdec =>
    rw [exec_hexdec_of_zero rfl]
    exact failsPlain_completeError .hexLenZero _

/-! ### A text padded on the left -/

theorem hexValue_of_zeros {h : Vector Byte 16} {n : Nat} (hzero : ∀ k, k < n → byteAt h k = 0x30#8) :
    hexValue h n = 0 := by
  induction n with
  | zero => rfl
  | succ n ih =>
    rw [hexValue_succ, ih fun k hk => hzero k (Nat.lt_succ_of_lt hk), hzero n (Nat.lt_succ_self n)]
    decide

/-- Zeros before a text do not change its number (rule R176). -/
theorem hexValue_leftPadded {h h' : Vector Byte 16} {p n : Nat} (hzero : ∀ k, k < p → byteAt h' k = 0x30#8)
    (hsame : ∀ k, k < n → byteAt h' (p + k) = byteAt h k) : hexValue h' (p + n) = hexValue h n := by
  induction n with
  | zero => exact hexValue_of_zeros hzero
  | succ n ih =>
    rw [← Nat.add_assoc, hexValue_succ, hexValue_succ, ih fun k hk => hsame k (Nat.lt_succ_of_lt hk),
      hsame n (Nat.lt_succ_self n)]

theorem hexText_leftPadded {h h' : Vector Byte 16} {p n : Nat} (hzero : ∀ k, k < p → byteAt h' k = 0x30#8)
    (hsame : ∀ k, k < n → byteAt h' (p + k) = byteAt h k) (htext : HexText h n) : HexText h' (p + n) := by
  intro k hk
  by_cases hpad : k < p
  · rw [hzero k hpad]
    decide
  · obtain ⟨j, rfl⟩ := Nat.exists_eq_add_of_le (Nat.not_lt.mp hpad)
    rw [hsame j (by omega)]
    exact htext j (by omega)

/-- Settles O49: both texts pass HEXDEC's checks, and have one number (`hexValue_leftPadded`). -/
theorem shortHexTextReadsAsPadded : Obligations.ShortHexTextReadsAsPadded := by
  unfold Obligations.ShortHexTextReadsAsPadded
  intro s s' t t' n hpos hle hlen hlen' hzero hsame hhex hexec hexec'
  have htext : HexText s.regs.hex n := fun k hk => isHex_of_hexDigit (hhex k hk)
  have hpadded := hexText_leftPadded hzero hsame htext
  have hvalue := hexValue_leftPadded hzero hsame
  rw [Nat.sub_add_cancel hle] at hpadded hvalue
  rw [exec_hexdec_of_hexText (by omega) (by omega) (hlen.symm ▸ htext), hlen] at hexec
  rw [exec_hexdec_of_hexText (by omega) (by omega) (hlen'.symm ▸ hpadded), hlen', hvalue] at hexec'
  cases hexec
  cases hexec'
  rfl

/-! ### Host programs -/

/-- Four bytes of a list as a word, big-endian (20_memory.md rule R62). -/
def wordOfBytes (l : List Byte) (j : Nat) : Word :=
  l.getD (4 * j) 0#8 ++ l.getD (4 * j + 1) 0#8 ++ l.getD (4 * j + 2) 0#8 ++ l.getD (4 * j + 3) 0#8

/-- The writes of a buffer: one for each four bytes, to consecutive words (rule R86). -/
theorem bufWrites_eq (off : Nat) (l : List Byte) (hl : l.length % 4 = 0) : bufWrites off l =
    (List.range (l.length / 4)).map fun j =>
      .host (.write .w32 (BitVec.ofNat 8 (off + 4 * j)) (wordOfBytes l j)) := by
  induction off, l using bufWrites.induct with
  | case1 off a b c d rest ih =>
    have hlength : (a :: b :: c :: d :: rest).length / 4 = rest.length / 4 + 1 := by simp; omega
    have hrest : rest.length % 4 = 0 := by simp at hl; omega
    rw [bufWrites, ih hrest, hlength, List.range_succ_eq_map, List.map_cons, List.map_map]
    refine congrArg₂ List.cons rfl (List.map_congr_left fun j _ => ?_)
    have hoff : off + 4 + 4 * j = off + 4 * (j + 1) := by omega
    rw [hoff]
    rfl
  | case2 l off hshort =>
    rcases l with _ | ⟨a, _ | ⟨b, _ | ⟨c, _ | ⟨d, rest⟩⟩⟩⟩
    · rfl
    · simp at hl -- one byte
    · simp at hl -- two bytes
    · simp at hl -- three bytes
    · exact (hshort a b c d rest rfl).elim

theorem bufOffset_eq_wordZero (b : Buf) : bufOffset b = wordZero b := by cases b <;> rfl

theorem step_wait {s : State} {es : List Event} (hs : s.resetIn = false) (hsched : s.schedule = .wait :: es) :
    step s = .next { s with
      readData := readReg s .status
      schedule := if s.status.busy then .agent :: .wait :: es else es } := by
  have hread : hostRead .w32 0x0C#8 { s with schedule := es } =
      { s with schedule := es, readData := readReg s .status } :=
    hostAccess_rd (s := { s with schedule := es }) .status hs
  have hbusy : (readReg s .status).getLsbD 0 = s.status.busy := getLsbD_readReg_status s 0
  simp only [step, hsched, eventStep, waitStep, hread, hbusy]
  split <;> rfl

/-- Settles O52: the buffer's writes are `bufWrites_eq`, a `WAIT` is `step_wait`, and the other lines expand by
definition. -/
theorem pseudoInstructionsExpand : Obligations.PseudoInstructionsExpand := by
  unfold Obligations.PseudoInstructionsExpand
  refine ⟨fun i => rfl, fun v => ⟨rfl, rfl, rfl, rfl⟩, fun b bytes j hwf hj => ?wrbuf,
    fun s es hs hsched => step_wait hs hsched⟩
  case wrbuf =>
    have hfour : bytes.length % 4 = 0 := by
      simp only [HostLine.wellFormed, Bool.and_eq_true, beq_iff_eq] at hwf
      exact hwf.1
    rw [expandLine, bufWrites_eq _ _ hfour, bufOffset_eq_wordZero]
    have hj' : j < bytes.length / 4 := by omega
    exact ⟨by simp, by simp [hj', wordOfBytes]⟩

end Sys2Proof.Proofs
end
